-- ==== Sys2Proof/Word.lean ====
section
/-! DEFINITION. The widths the spec gives its values (00_scope.md R5, R7, R8). All values are unsigned. -/

namespace Sys2Proof

/-- A memory cell, a V register, a timer or an immediate `nn`: 8 bits (R5). -/
abbrev Byte := BitVec 8

/-- An instruction word, I, PC or a stack slot: 16 bits (R5). -/
abbrev Word := BitVec 16

/-- The 12-bit address operand `nnn` (30_encoding.md R71). -/
abbrev Addr12 := BitVec 12

/-- An index into V0..VF, from a register field of an instruction (R71, R72). -/
abbrev Reg := Fin 16

/-- A logical key 0x0..0xF (45_keypad.md R210). -/
abbrev Key := Fin 16

/-- The sprite height `n` of `DRW`: a count 0..15 (R71, R72). -/
abbrev Height := Fin 16

end Sys2Proof
end

