-- ==== Sys2Proof/Syntax.lean ====
section
/-! DEFINITION. The 35 instructions: one constructor per row of spec/opcode_table.json, in the order of 30_encoding.md
R74. Operands are decoded fields (R71, R72); no raw encoding reaches the machine. -/

namespace Sys2Proof

inductive Instr where
  /-- row 1, `SYS nnn` (R120) -/
  | sys (nnn : Addr12)
  /-- row 2, `CLS` (R193) -/
  | cls
  /-- row 3, `RET` (R121) -/
  | ret
  /-- row 4, `JP nnn` (R122) -/
  | jp (nnn : Addr12)
  /-- row 5, `CALL nnn` (R123) -/
  | call (nnn : Addr12)
  /-- row 6, `SE Vx, nn` (R124) -/
  | seImm (x : Reg) (nn : Byte)
  /-- row 7, `SNE Vx, nn` (R125) -/
  | sneImm (x : Reg) (nn : Byte)
  /-- row 8, `SE Vx, Vy` (R126) -/
  | seReg (x y : Reg)
  /-- row 9, `LD Vx, nn` (R140) -/
  | ldImm (x : Reg) (nn : Byte)
  /-- row 10, `ADD Vx, nn` (R141) -/
  | addImm (x : Reg) (nn : Byte)
  /-- row 11, `LD Vx, Vy` (R142) -/
  | ldReg (x y : Reg)
  /-- row 12, `OR Vx, Vy` (R143) -/
  | orReg (x y : Reg)
  /-- row 13, `AND Vx, Vy` (R144) -/
  | andReg (x y : Reg)
  /-- row 14, `XOR Vx, Vy` (R145) -/
  | xorReg (x y : Reg)
  /-- row 15, `ADD Vx, Vy` (R146) -/
  | addReg (x y : Reg)
  /-- row 16, `SUB Vx, Vy` (R147) -/
  | subReg (x y : Reg)
  /-- row 17, `SHR Vx {, Vy}` (R148): y is encoded and ignored by execution -/
  | shr (x y : Reg)
  /-- row 18, `SUBN Vx, Vy` (R149) -/
  | subnReg (x y : Reg)
  /-- row 19, `SHL Vx {, Vy}` (R150): y is encoded and ignored by execution -/
  | shl (x y : Reg)
  /-- row 20, `SNE Vx, Vy` (R127) -/
  | sneReg (x y : Reg)
  /-- row 21, `LD I, nnn` (R170) -/
  | ldI (nnn : Addr12)
  /-- row 22, `JP V0, nnn` (R128) -/
  | jpV0 (nnn : Addr12)
  /-- row 23, `RND Vx, nn` (R151) -/
  | rnd (x : Reg) (nn : Byte)
  /-- row 24, `DRW Vx, Vy, n` (R194) -/
  | drw (x y : Reg) (n : Height)
  /-- row 25, `SKP Vx` (R212) -/
  | skp (x : Reg)
  /-- row 26, `SKNP Vx` (R213) -/
  | sknp (x : Reg)
  /-- row 27, `LD Vx, DT` (R231) -/
  | ldFromDt (x : Reg)
  /-- row 28, `LD Vx, K` (R214) -/
  | ldKey (x : Reg)
  /-- row 29, `LD DT, Vx` (R232) -/
  | ldToDt (x : Reg)
  /-- row 30, `LD ST, Vx` (R233) -/
  | ldToSt (x : Reg)
  /-- row 31, `ADD I, Vx` (R171) -/
  | addI (x : Reg)
  /-- row 32, `LD F, Vx` (R172) -/
  | ldFont (x : Reg)
  /-- row 33, `LD B, Vx` (R173) -/
  | ldBcd (x : Reg)
  /-- row 34, `LD [I], Vx` (R174) -/
  | storeRegs (x : Reg)
  /-- row 35, `LD Vx, [I]` (R175) -/
  | loadRegs (x : Reg)
deriving DecidableEq, Repr

end Sys2Proof
end

