-- ==== Sys2Proof/WellFormed.lean ====
section
/-! DEFINITION. Which terms of `Instr` stand for a word of 30_encoding.md R74. The operand types already hold every
field to its width; the one check left is row 1's exclusion: `SYS 0x0E0` and `SYS 0x0EE` are no `SYS`, since the words
00E0 and 00EE are `CLS` and `RET` (R74, R75). -/

namespace Sys2Proof

def Instr.wf : Instr → Bool
  | .sys nnn => nnn != 0x0E0#12 && nnn != 0x0EE#12
  | .cls | .ret | .jp _ | .call _ | .seImm _ _ | .sneImm _ _ | .seReg _ _ | .ldImm _ _ | .addImm _ _
  | .ldReg _ _ | .orReg _ _ | .andReg _ _ | .xorReg _ _ | .addReg _ _ | .subReg _ _ | .shr _ _ | .subnReg _ _
  | .shl _ _ | .sneReg _ _ | .ldI _ | .jpV0 _ | .rnd _ _ | .drw _ _ _ | .skp _ | .sknp _ | .ldFromDt _ | .ldKey _
  | .ldToDt _ | .ldToSt _ | .addI _ | .ldFont _ | .ldBcd _ | .storeRegs _ | .loadRegs _ => true

end Sys2Proof
end

