-- ==== Sys2Proof/Decode.lean ====
section
/-! DEFINITION. Decoding (30_encoding.md R70 to R77), total and rejecting by name, and the encoder written from the
same table R74. The bit patterns are the spec's decision D1 (log 11). -/

namespace Sys2Proof

/-- Why bytes are no instruction. -/
inductive DecodeError where
  /-- fewer than the two bytes of a word (R70) -/
  | truncated
  /-- the word is none of the 35 encodings: the illegal words of R76 -/
  | unknownInstruction (w : Word)
deriving DecidableEq, Repr

/-! Fields of the word (R71). -/

/-- `family`, w[15:12] -/
def fieldFamily (w : Word) : Nat := (w.extractLsb' 12 4).toNat
/-- `x`, w[11:8] -/
def fieldX (w : Word) : Reg := (w.extractLsb' 8 4).toFin
/-- `y`, w[7:4] -/
def fieldY (w : Word) : Reg := (w.extractLsb' 4 4).toFin
/-- `n`, w[3:0] -/
def fieldN (w : Word) : Fin 16 := (w.extractLsb' 0 4).toFin
/-- `nn`, w[7:0] -/
def fieldNN (w : Word) : Byte := w.extractLsb' 0 8
/-- `nnn`, w[11:0] -/
def fieldNNN (w : Word) : Addr12 := w.extractLsb' 0 12

/-- The fetched word of two bytes, the byte at the lower address high (20_memory.md R52). -/
def wordOf (hi lo : Byte) : Word := hi ++ lo

/-- Family 0 (R75): the exact words 00E0 and 00EE come before `SYS nnn`. -/
def decodeFamily0 (w : Word) : Instr :=
  if w = 0x00E0#16 then .cls
  else if w = 0x00EE#16 then .ret
  else .sys (fieldNNN w)

/-- Family 8 (R75): the low nibble selects the operation. -/
def decodeFamily8 (w : Word) : Except DecodeError Instr :=
  match (fieldN w).val with
  | 0x0 => .ok (.ldReg (fieldX w) (fieldY w))
  | 0x1 => .ok (.orReg (fieldX w) (fieldY w))
  | 0x2 => .ok (.andReg (fieldX w) (fieldY w))
  | 0x3 => .ok (.xorReg (fieldX w) (fieldY w))
  | 0x4 => .ok (.addReg (fieldX w) (fieldY w))
  | 0x5 => .ok (.subReg (fieldX w) (fieldY w))
  | 0x6 => .ok (.shr (fieldX w) (fieldY w))
  | 0x7 => .ok (.subnReg (fieldX w) (fieldY w))
  | 0xE => .ok (.shl (fieldX w) (fieldY w))
  | _ => .error (.unknownInstruction w)

/-- Family E (R75): the low byte selects the operation. -/
def decodeFamilyE (w : Word) : Except DecodeError Instr :=
  if fieldNN w = 0x9E#8 then .ok (.skp (fieldX w))
  else if fieldNN w = 0xA1#8 then .ok (.sknp (fieldX w))
  else .error (.unknownInstruction w)

/-- Family F (R75): the low byte selects the operation. -/
def decodeFamilyF (w : Word) : Except DecodeError Instr :=
  if fieldNN w = 0x07#8 then .ok (.ldFromDt (fieldX w))
  else if fieldNN w = 0x0A#8 then .ok (.ldKey (fieldX w))
  else if fieldNN w = 0x15#8 then .ok (.ldToDt (fieldX w))
  else if fieldNN w = 0x18#8 then .ok (.ldToSt (fieldX w))
  else if fieldNN w = 0x1E#8 then .ok (.addI (fieldX w))
  else if fieldNN w = 0x29#8 then .ok (.ldFont (fieldX w))
  else if fieldNN w = 0x33#8 then .ok (.ldBcd (fieldX w))
  else if fieldNN w = 0x55#8 then .ok (.storeRegs (fieldX w))
  else if fieldNN w = 0x65#8 then .ok (.loadRegs (fieldX w))
  else .error (.unknownInstruction w)

/-- `decode(w)` of R75: one row of R74, or `UnknownInstruction`. -/
def decode (w : Word) : Except DecodeError Instr :=
  match fieldFamily w with
  | 0x0 => .ok (decodeFamily0 w)
  | 0x1 => .ok (.jp (fieldNNN w))
  | 0x2 => .ok (.call (fieldNNN w))
  | 0x3 => .ok (.seImm (fieldX w) (fieldNN w))
  | 0x4 => .ok (.sneImm (fieldX w) (fieldNN w))
  | 0x5 => if fieldN w = 0 then .ok (.seReg (fieldX w) (fieldY w)) else .error (.unknownInstruction w)
  | 0x6 => .ok (.ldImm (fieldX w) (fieldNN w))
  | 0x7 => .ok (.addImm (fieldX w) (fieldNN w))
  | 0x8 => decodeFamily8 w
  | 0x9 => if fieldN w = 0 then .ok (.sneReg (fieldX w) (fieldY w)) else .error (.unknownInstruction w)
  | 0xA => .ok (.ldI (fieldNNN w))
  | 0xB => .ok (.jpV0 (fieldNNN w))
  | 0xC => .ok (.rnd (fieldX w) (fieldNN w))
  | 0xD => .ok (.drw (fieldX w) (fieldY w) (fieldN w))
  | 0xE => decodeFamilyE w
  | 0xF => decodeFamilyF w
  -- a nibble has no other value
  | _ => .error (.unknownInstruction w)

/-- Decoding of a byte stream: the instruction of its first word, and the bytes after it (R52, R70). -/
def decodeBytes : List Byte → Except DecodeError (Instr × List Byte)
  | hi :: lo :: rest =>
    match decode (wordOf hi lo) with
    | .ok i => .ok (i, rest)
    | .error e => .error e
  | _ => .error .truncated

/-! The formats of R73, from their fields. -/

/-- format `nnn`: `ffff aaaa aaaa aaaa` -/
def formatNNN (f : BitVec 4) (nnn : Addr12) : Word := f ++ nnn
/-- format `xnn`: `ffff xxxx bbbb bbbb`; with a fixed low byte it is format `x` -/
def formatXNN (f : BitVec 4) (x : Reg) (nn : Byte) : Word := f ++ (BitVec.ofFin x : BitVec 4) ++ nn
/-- format `xyn`: `ffff xxxx yyyy nnnn`; with a fixed low nibble it is format `xy` -/
def formatXYN (f : BitVec 4) (x y : Reg) (n : Fin 16) : Word :=
  f ++ (BitVec.ofFin x : BitVec 4) ++ (BitVec.ofFin y : BitVec 4) ++ (BitVec.ofFin n : BitVec 4)

/-- The word of an instruction, row by row of R74. -/
def encode : Instr → Word
  | .sys nnn => formatNNN 0x0 nnn
  | .cls => 0x00E0
  | .ret => 0x00EE
  | .jp nnn => formatNNN 0x1 nnn
  | .call nnn => formatNNN 0x2 nnn
  | .seImm x nn => formatXNN 0x3 x nn
  | .sneImm x nn => formatXNN 0x4 x nn
  | .seReg x y => formatXYN 0x5 x y 0x0
  | .ldImm x nn => formatXNN 0x6 x nn
  | .addImm x nn => formatXNN 0x7 x nn
  | .ldReg x y => formatXYN 0x8 x y 0x0
  | .orReg x y => formatXYN 0x8 x y 0x1
  | .andReg x y => formatXYN 0x8 x y 0x2
  | .xorReg x y => formatXYN 0x8 x y 0x3
  | .addReg x y => formatXYN 0x8 x y 0x4
  | .subReg x y => formatXYN 0x8 x y 0x5
  | .shr x y => formatXYN 0x8 x y 0x6
  | .subnReg x y => formatXYN 0x8 x y 0x7
  | .shl x y => formatXYN 0x8 x y 0xE
  | .sneReg x y => formatXYN 0x9 x y 0x0
  | .ldI nnn => formatNNN 0xA nnn
  | .jpV0 nnn => formatNNN 0xB nnn
  | .rnd x nn => formatXNN 0xC x nn
  | .drw x y n => formatXYN 0xD x y n
  | .skp x => formatXNN 0xE x 0x9E
  | .sknp x => formatXNN 0xE x 0xA1
  | .ldFromDt x => formatXNN 0xF x 0x07
  | .ldKey x => formatXNN 0xF x 0x0A
  | .ldToDt x => formatXNN 0xF x 0x15
  | .ldToSt x => formatXNN 0xF x 0x18
  | .addI x => formatXNN 0xF x 0x1E
  | .ldFont x => formatXNN 0xF x 0x29
  | .ldBcd x => formatXNN 0xF x 0x33
  | .storeRegs x => formatXNN 0xF x 0x55
  | .loadRegs x => formatXNN 0xF x 0x65

/-- The bytes of an instruction as the ROM stores them: high byte first (R52). -/
def encodeBytes (i : Instr) : List Byte :=
  [(encode i).extractLsb' 8 8, (encode i).extractLsb' 0 8]

/-- The word that the opcode table's bits `w` stand for: bit 0 is the word's bit 0 (R7), every bit from `nbits` up
is 0. -/
def tableWord (nbits w : Nat) : Word := BitVec.ofNat 16 (w % 2 ^ nbits)

/-- What the decoder reads from an instruction whose bits the opcode table numbers as `w`: its two bytes are laid out
high byte first and given to `decodeBytes`. -/
def decodeTableWord (nbits w : Nat) : Option Instr :=
  match decodeBytes [(tableWord nbits w).extractLsb' 8 8, (tableWord nbits w).extractLsb' 0 8] with
  | .ok (i, _) => some i
  | .error _ => none

end Sys2Proof
end

