-- ==== Sys2Proof/Config.lean ====
section
/-! DEFINITION. The implementation parameters (00_scope.md R5, R6) and the free values, each an opaque constant with
no body. A parameter is an argument of the model: `Params` stands in `State.params`, so that a statement about every
state is one about every value of the parameters (log 1). -/

namespace Sys2Proof

/-- ADDR_POLICY (R6, 20_memory.md R51): what happens to an address above 0xFFF. -/
inductive AddrPolicy where
  | wrap
  | fault
deriving DecidableEq, Repr

/-- The parameters that the source does not fix (R6). `fontBase` is any address with FONT_BASE + 80 ≤ 0x200, that is
0..432; `fontData` holds the 80 bytes of FONT_DATA. -/
structure Params where
  addrPolicy : AddrPolicy
  fontBase   : Fin 433
  fontData   : Vector Byte 80
deriving DecidableEq, Repr

namespace Config

/-- MEM_SIZE (R5). -/
def memSize : Nat := 4096

/-- PROGRAM_BASE (R5). -/
def programBase : Nat := 0x200

/-- MAX_ROM = MEM_SIZE − PROGRAM_BASE − 1 (R5). -/
def maxRom : Nat := 3583

/-- STACK_DEPTH (R6, 10_state.md R28). -/
def stackDepth : Nat := 16

/-- FONT_BASE is OPEN: the spec gives it no default (R6, D12, U10). FREE VALUE (log 2). -/
opaque fontBase : Fin 433

/-- `RandomByte()`: the draw that `RND` takes, at the value of `State.fresh` (R12, R151, D17, U4). FREE VALUE (log 7). -/
opaque randomByte : Nat → Byte

/-! What a faulted machine holds beside its diagnostic is any value (40_cycle.md R109, 60_exceptions.md R253, D18, U9).
FREE VALUES, each at the value of `State.fresh` when the fatal error is raised (log 5). -/

opaque faultedRegs : Nat → Vector Byte 16
opaque faultedIndex : Nat → Word
opaque faultedDepth : Nat → Fin 17
opaque faultedStack : Nat → Vector Word 16
opaque faultedMemByte : Nat → Nat → Byte
opaque faultedPixels : Nat → Vector (Vector Bool 64) 32
opaque faultedDirty : Nat → Bool

end Config

end Sys2Proof
end

