-- ==== Sys2Proof/Machine/Memory.lean ====
section
/-! DEFINITION. Memory: 4096 bytes (20_memory.md R50), held as the list of those that differ from what construction
leaves there, by rising address. -/

namespace Sys2Proof.Machine

/-- Address and byte pairs, in the canonical form `Memory.wf`. -/
abbrev Memory := List Host.Cell

/-- What an unlisted address reads as: its contents after construction with no ROM (R57, 70_reset_and_hazards.md R280),
that is FONT_DATA at FONT_BASE and zero everywhere else. The font lies below PROGRAM_BASE (R6), so the outer test
changes nothing; it lets an address in the program area be read without knowing FONT_BASE. -/
def resetByte (p : Params) (a : Nat) : Byte :=
  if a < Config.programBase then
    if h : p.fontBase.val ≤ a ∧ a < p.fontBase.val + 80 then
      p.fontData[a - p.fontBase.val]'(by omega)
    else 0
  else 0

/-- The byte at `a`: the last byte written there, or its construction value (R56). -/
def Memory.read (p : Params) : Memory → Nat → Byte
  | [], a => resetByte p a
  | c :: m, a => if a = c.1 then c.2 else Memory.read p m a

/-- Insertion of a cell before the first greater address. -/
def Memory.insert (c : Host.Cell) : Memory → Memory
  | [] => [c]
  | d :: m => if c.1 < d.1 then c :: d :: m else d :: Memory.insert c m

/-- Store the byte `v` at `a`; a byte equal to the construction value leaves no entry. -/
def Memory.write (p : Params) (a : Nat) (v : Byte) (m : Memory) : Memory :=
  let rest := m.filter fun c => c.1 != a
  if v = resetByte p a then rest else Memory.insert (a, v) rest

/-- Bytes stored at `a`, `a + 1`, … in this order (the ROM copy of R280). -/
def Memory.writeList (p : Params) (a : Nat) : List Byte → Memory → Memory
  | [], m => m
  | b :: bs, m => Memory.writeList p (a + 1) bs (Memory.write p a b m)

/-- The memory whose byte at each address `a` is `f a` (irreducible: a `rfl` must not run through 4096 addresses). -/
@[irreducible] def Memory.ofBytes (p : Params) (f : Nat → Byte) : Memory :=
  (List.range Config.memSize).filterMap fun a => if f a = resetByte p a then none else some (a, f a)

/-- The canonical form: addresses strictly rising and inside the address space, no entry equal to what an unlisted
address reads as. -/
abbrev Memory.wf (p : Params) (m : Memory) : Prop :=
  m.Pairwise (fun c d => c.1 < d.1) ∧ ∀ c ∈ m, c.1 < Config.memSize ∧ c.2 ≠ resetByte p c.1

end Sys2Proof.Machine
end

