-- ==== Sys2Proof/Machine/Params.lean ====
section
/-! DEFINITION. The parameters of the machine that `State.reset` describes: the defaults of 00_scope.md R6, and the
open FONT_BASE left open. -/

namespace Sys2Proof.Machine

/-- The 80 bytes of FONT_DATA, glyph 0 first (10_state.md R41; the spec's default, from general knowledge; log 3). -/
def fontTable : Vector Byte 80 :=
  #v[0xF0, 0x90, 0x90, 0x90, 0xF0,   0x20, 0x60, 0x20, 0x20, 0x70,
     0xF0, 0x10, 0xF0, 0x80, 0xF0,   0xF0, 0x10, 0xF0, 0x10, 0xF0,
     0x90, 0x90, 0xF0, 0x10, 0x10,   0xF0, 0x80, 0xF0, 0x10, 0xF0,
     0xF0, 0x80, 0xF0, 0x90, 0xF0,   0xF0, 0x10, 0x20, 0x40, 0x40,
     0xF0, 0x90, 0xF0, 0x90, 0xF0,   0xF0, 0x90, 0xF0, 0x10, 0xF0,
     0xF0, 0x90, 0xF0, 0x90, 0x90,   0xE0, 0x90, 0xE0, 0x90, 0xE0,
     0xF0, 0x80, 0x80, 0x80, 0xF0,   0xE0, 0x90, 0x90, 0x90, 0xE0,
     0xF0, 0x80, 0xF0, 0x80, 0xF0,   0xF0, 0x80, 0xF0, 0x80, 0x80]

/-- ADDR_POLICY is `wrap` by default (R6, D3), FONT_BASE is open (log 2), FONT_DATA is the table of R41. -/
def defaultParams : Params :=
  { addrPolicy := .wrap, fontBase := Config.fontBase, fontData := fontTable }

end Sys2Proof.Machine
end

