-- ==== Sys2Proof/Machine/State.lean ====
section
/-! DEFINITION. The state of the machine (10_state.md R20 to R37), its state after reset (R40), and the reasons a step
can stop. -/

namespace Sys2Proof.Machine

/-- `fb[x, y]` is row y, column x (R33): 32 rows of 64 pixels, `true` = on. -/
abbrev Framebuffer := Vector (Vector Bool 64) 32

/-- The display: the framebuffer (R33) and the dirty flag (R34). -/
structure Display where
  fb    : Framebuffer
  dirty : Bool
deriving DecidableEq, Repr

/-- The key-wait latch (R36). -/
inductive Latch where
  | idle
  | held (k : Key)
  | released (k : Key)
deriving DecidableEq, Repr

/-- The causes of a fatal execution error, with the info that 60_exceptions.md R250 records beside pc and word. -/
inductive FatalCause where
  | unknownInstruction
  | stackOverflow
  | stackUnderflow
  /-- with the value of V[x] -/
  | keyIndexOutOfRange (vx : Byte)
  /-- with the address -/
  | addressOutOfRange (a : Nat)
deriving DecidableEq, Repr

/-- The diagnostic (R251): `word` is absent when the fetch itself faulted; `code` and `info` are read off the cause. -/
structure Diag where
  cause : FatalCause
  pc    : Word
  word  : Option Word
deriving DecidableEq, Repr

/-- The run status (R37). -/
inductive Status where
  | running
  | faulted (d : Diag)
deriving DecidableEq, Repr

/-- The state. `params` (R6: the model takes the parameters as an argument; log 1) and `fresh` (the counter of the free
values; log 7) are the model's own; every other field is state of R20. -/
structure State where
  v       : Vector Byte 16
  i       : Word
  pc      : Word
  sp      : Fin 17
  stack   : Vector Word 16
  dt      : Byte
  st      : Byte
  mem     : Memory
  display : Display
  keys    : Vector Bool 16
  latch   : Latch
  status  : Status
  params  : Params
  fresh   : Nat
deriving DecidableEq, Repr

/-- The state after construction with parameters `p` and no ROM: R40 (decisions D16, D19; log 4, 22), R280. -/
def State.initial (p : Params) : State where
  v := Vector.replicate 16 0
  i := 0
  pc := 0x0200
  sp := 0
  stack := Vector.replicate 16 0
  dt := 0
  st := 0
  mem := []
  display := { fb := Vector.replicate 32 (Vector.replicate 64 false), dirty := false }
  keys := Vector.replicate 16 false
  latch := .idle
  status := .running
  params := p
  fresh := 0

/-- The machine right after reset: constructed with the default parameters and a ROM of length 0 (R280, R281; log 8). -/
def State.reset : State := State.initial defaultParams

/-- Why a step stops with a fault. -/
inductive Fault where
  /-- Raised by `step` alone, on a machine whose status is already `faulted d`: `run_cycle` has no step there
  (40_cycle.md R101, 60_exceptions.md R254). SAFE: the hardware does not go on either. -/
  | stopped (d : Diag)
deriving DecidableEq, Repr

/-- Why a step is refused. -/
inductive Refusal where
  /-- Raised by an arm of `exec` that has no meaning yet; no arm does. SAFE: the model stops where the hardware goes on. -/
  | notModelled (mnemonic : String)
deriving DecidableEq, Repr

/-- What a meaning answers. -/
abbrev Result := Host.Outcome State Fault Refusal

end Sys2Proof.Machine
end

