-- ==== Sys2Proof/Machine/Operands.lean ====
section
/-! DEFINITION. The operand forms: registers, the index register, keys. Reads are of the state they are given, which a
meaning takes as the snapshot of 40_cycle.md R105. -/

namespace Sys2Proof.Machine

/-- `V[x]` (00_scope.md R9). -/
def State.reg (s : State) (x : Reg) : Byte := s.v[x.val]

/-- `V[x] <- b` (R9). No register is hard-wired (10_state.md R21). -/
def State.setReg (x : Reg) (b : Byte) (s : State) : State := { s with v := s.v.set x.val b }

/-- VF, the flags register (R9, R22). -/
abbrev regF : Reg := 15

/-- What a write of the value `a` leaves in I: reduced modulo 4096 under `wrap`, to 16 bits under `fault`
(10_state.md R27). -/
def indexReduced (pol : AddrPolicy) (a : Nat) : Word :=
  match pol with
  | .wrap => BitVec.ofNat 16 (a % Config.memSize)
  | .fault => BitVec.ofNat 16 a

/-- `I <- a` (R27). -/
def State.setIndex (a : Nat) (s : State) : State := { s with i := indexReduced s.params.addrPolicy a }

/-- The logical key of a register value, when it is one: 0..15 (45_keypad.md R210). -/
def keyOf (b : Byte) : Option Key := if h : b.toNat < 16 then some ⟨b.toNat, h⟩ else none

/-- `is_down(k)` (R210). -/
def State.isDown (s : State) (k : Key) : Bool := s.keys[k.val]

/-- The lowest-numbered key that is down (R214). -/
def State.lowestDown (s : State) : Option Key := (List.finRange 16).find? fun k => s.isDown k

/-- Registers V[k], V[k+1], … set to the bytes of a list (43_index_memory.md R175). -/
def setRegsFrom (k : Nat) : List Byte → Vector Byte 16 → Vector Byte 16
  | [], v => v
  | b :: bs, v => setRegsFrom (k + 1) bs (v.setIfInBounds k b)

/-- The bytes of V0..Vx (R174). -/
def State.regsUpTo (s : State) (x : Reg) : List Byte := s.v.toList.take (x.val + 1)

end Sys2Proof.Machine
end

