-- ==== Sys2Proof/Machine/Flags.lean ====
section
/-! DEFINITION. The values that VF receives (10_state.md R22, 42_alu.md R146 to R150), each computed from the original
operand values (40_cycle.md R105), and the order in which a flag and a result are written (R106). -/

namespace Sys2Proof.Machine

/-- `bool(c)` as a byte (00_scope.md R8). -/
def flagByte (c : Bool) : Byte := if c then 1 else 0

/-- Carry of an addition: the exact sum is over 0xFF (R146). -/
def carryOut (a b : Byte) : Bool := decide (a.toNat + b.toNat > 0xFF)

/-- The flag of a subtraction: minuend strictly greater than subtrahend (R147, R149; decision D6, log 14). -/
def notBorrow (minuend subtrahend : Byte) : Bool := decide (minuend.toNat > subtrahend.toNat)

/-- The bit that a right shift pushes out: bit 0 (R148). -/
def shiftedOutRight (a : Byte) : Bool := a.getLsbD 0

/-- The bit that a left shift pushes out: bit 7 (R150). -/
def shiftedOutLeft (a : Byte) : Bool := a.getLsbD 7

/-- VF first, V[x] second: with x = F the result stays (R106, C4). -/
def State.setFlagThenReg (flag : Bool) (x : Reg) (result : Byte) (s : State) : State :=
  (s.setReg regF (flagByte flag)).setReg x result

end Sys2Proof.Machine
end

