-- ==== Sys2Proof/Machine/Ops.lean ====
section
/-! DEFINITION. The shared operations: addresses and memory, the stack, PC, the timers, the fetch, the random draw, and
raising a fatal error. -/

namespace Sys2Proof.Machine

/-! Memory. -/

/-- The effective-address function (20_memory.md R51). -/
def ea (pol : AddrPolicy) (a : Nat) : Except FatalCause Nat :=
  match pol with
  | .wrap => .ok (a % Config.memSize)
  | .fault => if a > 0xFFF then .error (.addressOutOfRange a) else .ok a

/-- The byte that memory holds at an address of the address space (R56). -/
def State.byteAt (s : State) (a : Nat) : Byte := s.mem.read s.params a

/-- `MemRead(a, 1)` (00_scope.md R10). -/
def State.memRead (s : State) (a : Nat) : Except FatalCause Byte :=
  match ea s.params.addrPolicy a with
  | .ok e => .ok (s.byteAt e)
  | .error c => .error c

/-- `MemWrite(a, 1, b)` (R10). -/
def State.memWrite (s : State) (a : Nat) (b : Byte) : Except FatalCause State :=
  match ea s.params.addrPolicy a with
  | .ok e => .ok { s with mem := s.mem.write s.params e b }
  | .error c => .error c

/-- `MemRead` at `a`, `a + 1`, …, `a + n − 1`, in this order (43_index_memory.md R176). -/
def State.readBlock (s : State) (a : Nat) : Nat → Except FatalCause (List Byte)
  | 0 => .ok []
  | n + 1 =>
    match s.memRead a with
    | .error c => .error c
    | .ok b =>
      match s.readBlock (a + 1) n with
      | .error c => .error c
      | .ok bs => .ok (b :: bs)

/-- `MemWrite` at `a`, `a + 1`, … of the bytes of a list, in this order (R176). -/
def State.writeBlock (s : State) (a : Nat) : List Byte → Except FatalCause State
  | [] => .ok s
  | b :: bs =>
    match s.memWrite a b with
    | .error c => .error c
    | .ok t => t.writeBlock (a + 1) bs

/-! The stack (10_state.md R28). -/

/-- Push an address: slot `stack[SP]` is written; no push on a full stack. -/
def State.push (a : Word) (s : State) : Option State :=
  if h : s.sp.val < 16 then
    some { s with stack := s.stack.set s.sp.val a, sp := ⟨s.sp.val + 1, by omega⟩ }
  else none

/-- Pop the top address; the slot keeps its contents (R29); no pop from an empty stack. -/
def State.pop (s : State) : Option (Word × State) :=
  if h : 0 < s.sp.val then
    some (s.stack[s.sp.val - 1], { s with sp := ⟨s.sp.val - 1, by omega⟩ })
  else none

/-! PC (10_state.md R25: every write keeps 16 bits). -/

/-- The outcome Advance: `PC <- (PC + 2) & 0xFFFF` (00_scope.md R13, 40_cycle.md R107). -/
def State.advance (s : State) : State := { s with pc := s.pc + 2 }

/-- `PC <- a`, the outcome PCSet (R13). -/
def State.jump (a : Word) (s : State) : State := { s with pc := a }

/-- A skip: PC + 4 when taken, the default Advance when not (R111). -/
def State.skipIf (c : Bool) (s : State) : State := if c then s.jump (s.pc + 4) else s.advance

/-! The timers (46_timers.md R230). -/

/-- One decrement that saturates at 0. -/
def timerTick (t : Byte) : Byte := if t.toNat > 0 then t - 1 else t

/-- `TickTimers()`. -/
def State.tickTimers (s : State) : State := { s with dt := timerTick s.dt, st := timerTick s.st }

/-! The fetch (20_memory.md R52, 40_cycle.md R103). -/

/-- `{MemRead(PC, 1), MemRead(PC + 1, 1)}`. -/
def State.fetch (s : State) : Except FatalCause Word :=
  match s.memRead s.pc.toNat with
  | .error c => .error c
  | .ok hi =>
    match s.memRead (s.pc.toNat + 1) with
    | .error c => .error c
    | .ok lo => .ok (wordOf hi lo)

/-! The random draw (00_scope.md R12). -/

/-- `RandomByte()`: a free value, and the counter moved on (log 7). -/
def State.draw (s : State) : Byte × State := (Config.randomByte s.fresh, { s with fresh := s.fresh + 1 })

/-! Fatal errors. There is no return from one (60_exceptions.md R254), so no operation stands beside this. -/

/-- `raise Fatal(cause)` (00_scope.md R11, 60_exceptions.md R251, R253): `status` becomes `faulted` with the cause, the
PC of the instruction and the fetched word. PC stays (R104, R109), and so do the timers, which were decremented
before (R109), and keys and latch, which only the host and `LD Vx, K` write (R35, R216). V, I, SP, the stack, memory
and the display are any value (R253, D18): free values (log 5). -/
def State.raiseFatal (c : FatalCause) (word : Option Word) (s : State) : State :=
  { s with
    v := Config.faultedRegs s.fresh
    i := Config.faultedIndex s.fresh
    sp := Config.faultedDepth s.fresh
    stack := Config.faultedStack s.fresh
    mem := Memory.ofBytes s.params (Config.faultedMemByte s.fresh)
    display := { fb := Config.faultedPixels s.fresh, dirty := Config.faultedDirty s.fresh }
    status := .faulted { cause := c, pc := s.pc, word := word }
    fresh := s.fresh + 1 }

/-- A fatal error of the instruction `i` during its execute phase: the word recorded is that of `i` (R251). -/
def State.fatal (c : FatalCause) (i : Instr) (s : State) : Result := .next (s.raiseFatal c (some (encode i)))

end Sys2Proof.Machine
end

