-- ==== Sys2Proof/Machine/Alu.lean ====
section
/-! DEFINITION. Register and arithmetic instructions (42_alu.md R140 to R152). Results are modulo 256 (R152); VF is
written by R146 to R150 only (decision D8, log 16). -/

namespace Sys2Proof.Machine

/-- A result with no flag: `V[x] <- b`; Advance. -/
def State.finish (x : Reg) (b : Byte) (s : State) : Result := .next (s.setReg x b).advance

/-- A result with a flag: VF, then V[x]; Advance (40_cycle.md R106). -/
def State.finishFlag (flag : Bool) (x : Reg) (b : Byte) (s : State) : Result :=
  .next (s.setFlagThenReg flag x b).advance

/-- `LD Vx, nn` (R140). -/
def execLdImm (x : Reg) (nn : Byte) (s : State) : Result := s.finish x nn

/-- `ADD Vx, nn`, no carry (R141). -/
def execAddImm (x : Reg) (nn : Byte) (s : State) : Result := s.finish x (s.reg x + nn)

/-- `LD Vx, Vy` (R142). -/
def execLdReg (x y : Reg) (s : State) : Result := s.finish x (s.reg y)

/-- `OR Vx, Vy` (R143). -/
def execOrReg (x y : Reg) (s : State) : Result := s.finish x (s.reg x ||| s.reg y)

/-- `AND Vx, Vy` (R144). -/
def execAndReg (x y : Reg) (s : State) : Result := s.finish x (s.reg x &&& s.reg y)

/-- `XOR Vx, Vy` (R145). -/
def execXorReg (x y : Reg) (s : State) : Result := s.finish x (s.reg x ^^^ s.reg y)

/-- `ADD Vx, Vy` (R146). -/
def execAddReg (x y : Reg) (s : State) : Result :=
  s.finishFlag (carryOut (s.reg x) (s.reg y)) x (s.reg x + s.reg y)

/-- `SUB Vx, Vy` (R147). -/
def execSubReg (x y : Reg) (s : State) : Result :=
  s.finishFlag (notBorrow (s.reg x) (s.reg y)) x (s.reg x - s.reg y)

/-- `SHR Vx {, Vy}`: Vy is never read (R148; decision D7, log 15). -/
def execShr (x _y : Reg) (s : State) : Result :=
  s.finishFlag (shiftedOutRight (s.reg x)) x (s.reg x >>> 1)

/-- `SUBN Vx, Vy` (R149). -/
def execSubnReg (x y : Reg) (s : State) : Result :=
  s.finishFlag (notBorrow (s.reg y) (s.reg x)) x (s.reg y - s.reg x)

/-- `SHL Vx {, Vy}`: Vy is never read (R150; decision D7, log 15). -/
def execShl (x _y : Reg) (s : State) : Result :=
  s.finishFlag (shiftedOutLeft (s.reg x)) x (s.reg x <<< 1)

/-- `RND Vx, nn`: a fresh draw, masked (R151). -/
def execRnd (x : Reg) (nn : Byte) (s : State) : Result :=
  s.draw.2.finish x (s.draw.1 &&& nn)

end Sys2Proof.Machine
end

