-- ==== Sys2Proof/Machine/ControlFlow.lean ====
section
/-! DEFINITION. Control flow instructions (41_control_flow.md R120 to R128). -/

namespace Sys2Proof.Machine

/-- `SYS nnn` is a no-op (R120; decision D2, log 10). -/
def execSys (_nnn : Addr12) (s : State) : Result := .next s.advance

/-- `RET` (R121). -/
def execRet (s : State) : Result :=
  match s.pop with
  | none => s.fatal .stackUnderflow .ret
  | some (a, t) => .next (t.jump a)

/-- `JP nnn` (R122). -/
def execJp (nnn : Addr12) (s : State) : Result := .next (s.jump (nnn.setWidth 16))

/-- `CALL nnn` pushes PC + 2 (R123; decision D5, log 13). -/
def execCall (nnn : Addr12) (s : State) : Result :=
  match s.push (s.pc + 2) with
  | none => s.fatal .stackOverflow (.call nnn)
  | some t => .next (t.jump (nnn.setWidth 16))

/-- `SE Vx, nn` (R124). -/
def execSeImm (x : Reg) (nn : Byte) (s : State) : Result := .next (s.skipIf (s.reg x == nn))

/-- `SNE Vx, nn` (R125). -/
def execSneImm (x : Reg) (nn : Byte) (s : State) : Result := .next (s.skipIf (s.reg x != nn))

/-- `SE Vx, Vy` (R126). -/
def execSeReg (x y : Reg) (s : State) : Result := .next (s.skipIf (s.reg x == s.reg y))

/-- `SNE Vx, Vy` (R127). -/
def execSneReg (x y : Reg) (s : State) : Result := .next (s.skipIf (s.reg x != s.reg y))

/-- `JP V0, nnn`: the sum keeps 16 bits (R128; decision D27, log 29). -/
def execJpV0 (nnn : Addr12) (s : State) : Result :=
  .next (s.jump (BitVec.ofNat 16 (nnn.toNat + (s.reg 0).toNat)))

end Sys2Proof.Machine
end

