-- ==== Sys2Proof/Machine/IndexMemory.lean ====
section
/-! DEFINITION. Index register and memory instructions (43_index_memory.md R170 to R176). No access changes I (R176;
decision D9, log 17). -/

namespace Sys2Proof.Machine

/-- `LD I, nnn` (R170). -/
def execLdI (nnn : Addr12) (s : State) : Result := .next ({ s with i := nnn.setWidth 16 } : State).advance

/-- `ADD I, Vx` (R171; decision D4, log 12). -/
def execAddI (x : Reg) (s : State) : Result := .next (s.setIndex (s.i.toNat + (s.reg x).toNat)).advance

/-- `LD F, Vx`, on the whole of V[x] (R172; decision D13, log 19). -/
def execLdFont (x : Reg) (s : State) : Result :=
  .next (s.setIndex (s.params.fontBase.val + 5 * (s.reg x).toNat)).advance

/-- The decimal digits of a byte: hundreds, tens, ones (R173). -/
def bcdDigits (b : Byte) : List Byte :=
  [BitVec.ofNat 8 (b.toNat / 100), BitVec.ofNat 8 (b.toNat / 10 % 10), BitVec.ofNat 8 (b.toNat % 10)]

/-- `LD B, Vx` (R173). -/
def execLdBcd (x : Reg) (s : State) : Result :=
  match s.writeBlock s.i.toNat (bcdDigits (s.reg x)) with
  | .error c => s.fatal c (.ldBcd x)
  | .ok t => .next t.advance

/-- `LD [I], Vx` (R174). -/
def execStoreRegs (x : Reg) (s : State) : Result :=
  match s.writeBlock s.i.toNat (s.regsUpTo x) with
  | .error c => s.fatal c (.storeRegs x)
  | .ok t => .next t.advance

/-- `LD Vx, [I]` (R175). -/
def execLoadRegs (x : Reg) (s : State) : Result :=
  match s.readBlock s.i.toNat (x.val + 1) with
  | .error c => s.fatal c (.loadRegs x)
  | .ok bs => .next ({ s with v := setRegsFrom 0 bs s.v } : State).advance

end Sys2Proof.Machine
end

