-- ==== Sys2Proof/Machine/Keypad.lean ====
section
/-! DEFINITION. Keypad instructions (45_keypad.md R212 to R214). -/

namespace Sys2Proof.Machine

/-- A skip on the state of key V[x]: taken when the key's state is `want`; a value over 0x0F is fatal
(R212, R213; decision D15, log 21). -/
def State.skipOnKey (want : Bool) (x : Reg) (i : Instr) (s : State) : Result :=
  match keyOf (s.reg x) with
  | none => s.fatal (.keyIndexOutOfRange (s.reg x)) i
  | some k => .next (s.skipIf (s.isDown k == want))

/-- `SKP Vx` (R212). -/
def execSkp (x : Reg) (s : State) : Result := s.skipOnKey true x (.skp x)

/-- `SKNP Vx` (R213). -/
def execSknp (x : Reg) (s : State) : Result := s.skipOnKey false x (.sknp x)

/-- `LD Vx, K`, one execution (R214; decision D14, log 20). While it waits, PC stays on it. -/
def execLdKey (x : Reg) (s : State) : Result :=
  match s.latch with
  | .released j => .next ({ s.setReg x (BitVec.ofNat 8 j.val) with latch := .idle } : State).advance
  | .held _ => .next s
  | .idle =>
    match s.lowestDown with
    | some k => .next { s with latch := .held k }
    | none => .next s

end Sys2Proof.Machine
end

