-- ==== Sys2Proof/Machine/Timers.lean ====
section
/-! DEFINITION. Timer instructions (46_timers.md R231 to R233). -/

namespace Sys2Proof.Machine

/-- `LD Vx, DT`: the value left after this cycle's decrement (R231). -/
def execLdFromDt (x : Reg) (s : State) : Result := .next (s.setReg x s.dt).advance

/-- `LD DT, Vx` (R232). -/
def execLdToDt (x : Reg) (s : State) : Result := .next ({ s with dt := s.reg x } : State).advance

/-- `LD ST, Vx` (R233). -/
def execLdToSt (x : Reg) (s : State) : Result := .next ({ s with st := s.reg x } : State).advance

end Sys2Proof.Machine
end

