-- ==== Sys2Proof/Machine/Video.lean ====
section
/-! DEFINITION. The display's primitives and instructions (44_display.md R190 to R196). -/

namespace Sys2Proof.Machine

/-- `fb[px, py]` (10_state.md R33). -/
def Display.pixel (d : Display) (px : Fin 64) (py : Fin 32) : Bool := (d.fb[py.val])[px.val]

/-- `toggle(px, py)`, with coordinates that are in bounds by type (R190, R191): the pixel is flipped, the dirty flag set,
and the answer is whether an on pixel was turned off. -/
def Display.toggle (d : Display) (px : Fin 64) (py : Fin 32) : Display × Bool :=
  ({ fb := d.fb.set py.val ((d.fb[py.val]).set px.val (!d.pixel px py)), dirty := true }, d.pixel px py)

/-- `clear()` (R192): every pixel off, and not dirty (C2, log 22). -/
def Display.cleared : Display := { fb := Vector.replicate 32 (Vector.replicate 64 false), dirty := false }

/-- One sprite pixel (R194): toggled when its bit is 1 and it is in bounds, dropped when it is out of bounds (R195); the
flag is the OR over the toggles (R196). -/
def drawPixel (bit : Bool) (px py : Nat) (acc : Display × Bool) : Display × Bool :=
  if bit then
    if h : px < 64 ∧ py < 32 then
      ((acc.1.toggle ⟨px, h.1⟩ ⟨py, h.2⟩).1, acc.2 || (acc.1.toggle ⟨px, h.1⟩ ⟨py, h.2⟩).2)
    else acc
  else acc

/-- The columns of one row: bit 7 is the leftmost (R194; decision D11, log 18). -/
def drawRow (ox py : Nat) (b : Byte) (acc : Display × Bool) : Display × Bool :=
  (List.range 8).foldl (fun acc c => drawPixel (b.getLsbD (7 - c)) (ox + c) py acc) acc

/-- The rows of a sprite, downwards from row `py`. -/
def drawRows (ox : Nat) : Nat → List Byte → Display × Bool → Display × Bool
  | _, [], acc => acc
  | py, b :: bs, acc => drawRows ox (py + 1) bs (drawRow ox py b acc)

/-- `CLS` (R193). -/
def execCls (s : State) : Result := .next ({ s with display := Display.cleared } : State).advance

/-- `DRW Vx, Vy, n` (R194): every row byte is read; the origin is not wrapped (decision D10, log 18); VF is written once,
after the drawing. -/
def execDrw (x y : Reg) (n : Height) (s : State) : Result :=
  match s.readBlock s.i.toNat n.val with
  | .error c => s.fatal c (.drw x y n)
  | .ok rows =>
    let r := drawRows (s.reg x).toNat (s.reg y).toNat rows (s.display, false)
    .next (({ s with display := r.1 } : State).setReg regF (flagByte r.2)).advance

end Sys2Proof.Machine
end

