-- ==== Sys2Proof/Machine/Dispatch.lean ====
section
/-! DEFINITION. Phases 4 and 5 of a cycle (40_cycle.md R105, R107): each instruction's meaning, PC included. -/

namespace Sys2Proof.Machine

def exec (i : Instr) (s : State) : Host.Outcome State Fault Refusal :=
  match i with
  | .sys nnn => Sys2Proof.Machine.execSys nnn s
  | .cls => Sys2Proof.Machine.execCls s
  | .ret => Sys2Proof.Machine.execRet s
  | .jp nnn => Sys2Proof.Machine.execJp nnn s
  | .call nnn => Sys2Proof.Machine.execCall nnn s
  | .seImm x nn => Sys2Proof.Machine.execSeImm x nn s
  | .sneImm x nn => Sys2Proof.Machine.execSneImm x nn s
  | .seReg x y => Sys2Proof.Machine.execSeReg x y s
  | .ldImm x nn => Sys2Proof.Machine.execLdImm x nn s
  | .addImm x nn => Sys2Proof.Machine.execAddImm x nn s
  | .ldReg x y => Sys2Proof.Machine.execLdReg x y s
  | .orReg x y => Sys2Proof.Machine.execOrReg x y s
  | .andReg x y => Sys2Proof.Machine.execAndReg x y s
  | .xorReg x y => Sys2Proof.Machine.execXorReg x y s
  | .addReg x y => Sys2Proof.Machine.execAddReg x y s
  | .subReg x y => Sys2Proof.Machine.execSubReg x y s
  | .shr x y => Sys2Proof.Machine.execShr x y s
  | .subnReg x y => Sys2Proof.Machine.execSubnReg x y s
  | .shl x y => Sys2Proof.Machine.execShl x y s
  | .sneReg x y => Sys2Proof.Machine.execSneReg x y s
  | .ldI nnn => Sys2Proof.Machine.execLdI nnn s
  | .jpV0 nnn => Sys2Proof.Machine.execJpV0 nnn s
  | .rnd x nn => Sys2Proof.Machine.execRnd x nn s
  | .drw x y n => Sys2Proof.Machine.execDrw x y n s
  | .skp x => Sys2Proof.Machine.execSkp x s
  | .sknp x => Sys2Proof.Machine.execSknp x s
  | .ldFromDt x => Sys2Proof.Machine.execLdFromDt x s
  | .ldKey x => Sys2Proof.Machine.execLdKey x s
  | .ldToDt x => Sys2Proof.Machine.execLdToDt x s
  | .ldToSt x => Sys2Proof.Machine.execLdToSt x s
  | .addI x => Sys2Proof.Machine.execAddI x s
  | .ldFont x => Sys2Proof.Machine.execLdFont x s
  | .ldBcd x => Sys2Proof.Machine.execLdBcd x s
  | .storeRegs x => Sys2Proof.Machine.execStoreRegs x s
  | .loadRegs x => Sys2Proof.Machine.execLoadRegs x s

end Sys2Proof.Machine
end

