-- ==== Sys2Proof/Machine/Step.lean ====
section
/-! DEFINITION. One `run_cycle()` (40_cycle.md R100). -/

namespace Sys2Proof.Machine

/-- `run_cycle()` (R100): the timers, the fetch, the decode, the instruction. A faulted machine has no step (R101). -/
def step (s : State) : Host.Outcome State Fault Refusal :=
  match s.status with
  | .faulted d => .fault (.stopped d)
  | .running =>
    match s.tickTimers.fetch with
    | .error c => .next (s.tickTimers.raiseFatal c none)
    | .ok w =>
      match decode w with
      | .error _ => .next (s.tickTimers.raiseFatal .unknownInstruction (some w))
      | .ok i => exec i s.tickTimers

/-- `s` with the opcode table's word `w` at PC, where the next fetch reads it (20_memory.md R52). It stands for the load
of a ROM by `construct` (log 8). -/
def State.withFetchWord (s : State) (nbits w : Nat) : State :=
  { s with
    mem :=
      (s.mem.write s.params (s.pc.toNat % Config.memSize) ((tableWord nbits w).extractLsb' 8 8)).write s.params
        ((s.pc.toNat + 1) % Config.memSize) ((tableWord nbits w).extractLsb' 0 8) }

end Sys2Proof.Machine
end

