-- ==== Sys2Proof/Machine/HostPort.lean ====
section
/-! DEFINITION. The host's operations between cycles (60_exceptions.md R260, R261); `run_cycle` is `step`. -/

namespace Sys2Proof.Machine

/-- Why construction fails (R252). -/
inductive LoadError where
  | romTooLarge
deriving DecidableEq, Repr

/-- `construct(rom)` (70_reset_and_hazards.md R280, R281; decision D26, log 28): the ROM is copied to 0x200. -/
def construct (p : Params) (rom : List Byte) : Except LoadError State :=
  if rom.length > Config.maxRom then .error .romTooLarge
  else .ok { State.initial p with mem := Memory.writeList p Config.programBase rom [] }

/-- The key snapshot of a set of keys: bit k for key k (45_keypad.md R211). -/
def keysOf (p : BitVec 16) : Vector Bool 16 :=
  #v[p.getLsbD 0, p.getLsbD 1, p.getLsbD 2, p.getLsbD 3, p.getLsbD 4, p.getLsbD 5, p.getLsbD 6, p.getLsbD 7,
     p.getLsbD 8, p.getLsbD 9, p.getLsbD 10, p.getLsbD 11, p.getLsbD 12, p.getLsbD 13, p.getLsbD 14, p.getLsbD 15]

/-- The latch after a key update (R211, R215): a held key that is not in the set is seen released; `idle` and
`released` stay. -/
def latchAfterKeys (p : BitVec 16) : Latch → Latch
  | .held j => if p.getLsbD j.val then .held j else .released j
  | .idle => .idle
  | .released j => .released j

/-- `set_pressed_keys(S)`, bit k of `S` for key k (45_keypad.md R211): the whole snapshot is replaced, and a held key
that is not in `S` is seen released. -/
def State.setPressedKeys (pressed : BitVec 16) (s : State) : State :=
  { s with
    keys := keysOf pressed
    latch := latchAfterKeys pressed s.latch }

/-- `is_halted()` (40_cycle.md R110): two zero bytes at PC. Where the probe is out of range the answer is false
(decision D25, log 27). -/
def State.isHalted (s : State) : Bool :=
  match s.memRead s.pc.toNat, s.memRead (s.pc.toNat + 1) with
  | .ok hi, .ok lo => hi == 0 && lo == 0
  | _, _ => false

/-- `read_framebuffer()` (44_display.md R197). -/
def State.readFramebuffer (s : State) : Framebuffer := s.display.fb

/-- `read_dirty()` (R197). -/
def State.readDirty (s : State) : Bool := s.display.dirty

/-- `clear_dirty()` (R197). -/
def State.clearDirty (s : State) : State := { s with display := { s.display with dirty := false } }

/-- The code of a cause (60_exceptions.md R250; the spec's own numbers, D28, log 30). -/
def FatalCause.code : FatalCause → Nat
  | .unknownInstruction => 1
  | .stackOverflow => 2
  | .stackUnderflow => 3
  | .keyIndexOutOfRange _ => 4
  | .addressOutOfRange _ => 5

/-- The extra value of a cause (R250, R251). -/
def FatalCause.info : FatalCause → Option Nat
  | .keyIndexOutOfRange vx => some vx.toNat
  | .addressOutOfRange a => some a
  | .unknownInstruction | .stackOverflow | .stackUnderflow => none

/-- `diag`, which the host reads (R251, R260). -/
def State.diag (s : State) : Option Diag :=
  match s.status with
  | .running => none
  | .faulted d => some d

end Sys2Proof.Machine
end

