-- ==== Sys2Proof/Safety.lean ====
section
/-! DEFINITION. The words claims are made in: frames, the ranges of an access, the illegal words, runs, the invariants
that a run keeps, and what counts as a safe run. -/

namespace Sys2Proof.Machine

/-! Frames. -/

/-- One piece of the state, down to the register, the slot, the byte, the pixel and the key. -/
inductive Part where
  | reg (x : Reg)
  | index
  | pc
  | sp
  | slot (k : Fin 16)
  | dt
  | st
  | byte (a : Nat)
  | pixel (px : Fin 64) (py : Fin 32)
  | dirty
  | key (k : Key)
  | latch
  | status
  | params
  | fresh

/-- The piece holds in `t` what it holds in `s`. -/
def Part.same (s t : State) : Part → Prop
  | .reg x => t.reg x = s.reg x
  | .index => t.i = s.i
  | .pc => t.pc = s.pc
  | .sp => t.sp = s.sp
  | .slot k => t.stack[k.val] = s.stack[k.val]
  | .dt => t.dt = s.dt
  | .st => t.st = s.st
  | .byte a => t.byteAt a = s.byteAt a
  | .pixel px py => t.display.pixel px py = s.display.pixel px py
  | .dirty => t.display.dirty = s.display.dirty
  | .key k => t.isDown k = s.isDown k
  | .latch => t.latch = s.latch
  | .status => t.status = s.status
  | .params => t.params = s.params
  | .fresh => t.fresh = s.fresh

/-- From `s` to `t` nothing changes but the pieces of `parts`. -/
def ChangesOnly (parts : Set Part) (s t : State) : Prop := ∀ p : Part, p ∉ parts → p.same s t

/-- The bytes at I + 0, …, I + last, at the addresses that `ea` gives (20_memory.md R51, R55). -/
def bytesFromIndex (s : State) (last : Nat) : Set Part :=
  {p | ∃ k ≤ last, ∃ a, ea s.params.addrPolicy (s.i.toNat + k) = .ok a ∧ p = .byte a}

/-- The accesses at I + 0, …, I + last raise no error: always under `wrap`, below 0x1000 under `fault` (R51). -/
def InRange (s : State) (last : Nat) : Prop := s.params.addrPolicy = .wrap ∨ s.i.toNat + last ≤ 0xFFF

/-- The status of a machine that `raise Fatal(cause)` stopped while it ran the instruction `i` at the PC of `s`
(60_exceptions.md R251). -/
def fatalStatus (s : State) (i : Instr) (c : FatalCause) : Status :=
  .faulted { cause := c, pc := s.pc, word := some (encode i) }

/-- The fatal errors that an instruction can raise, and when (60_exceptions.md R250, R255). -/
def CanRaise (i : Instr) (s : State) : FatalCause → Prop
  | .unknownInstruction => False
  | .stackOverflow => (∃ nnn, i = .call nnn) ∧ s.sp.val = 16
  | .stackUnderflow => i = .ret ∧ s.sp.val = 0
  | .keyIndexOutOfRange vx => ∃ x, (i = .skp x ∨ i = .sknp x) ∧ vx = s.reg x ∧ 0x0F < vx.toNat
  | .addressOutOfRange a => s.params.addrPolicy = .fault ∧ 0xFFF < a ∧
      ((∃ x y n, i = .drw x y n) ∨ ∃ x, i = .ldBcd x ∨ i = .storeRegs x ∨ i = .loadRegs x)

/-! Shapes of results. -/

/-- PC moved on by `n`, kept to 16 bits (10_state.md R25). -/
def PcPlus (n : Nat) (s t : State) : Prop := t.pc.toNat = (s.pc.toNat + n) % 65536

/-- V[x] holds `v` and PC moved on by 2; nothing else changed. -/
def SetsReg (x : Reg) (v : Nat) (s t : State) : Prop :=
  (t.reg x).toNat = v ∧ PcPlus 2 s t ∧ ChangesOnly {.pc, .reg x} s t

/-- V[x] holds `v`, VF the flag unless it is V[x] itself (40_cycle.md R106), and PC moved on by 2; nothing else
changed. -/
def SetsRegAndFlag (x : Reg) (v : Nat) (flag : Bool) (s t : State) : Prop :=
  (t.reg x).toNat = v ∧ (x ≠ regF → (t.reg regF).toNat = if flag then 1 else 0) ∧ PcPlus 2 s t ∧
    ChangesOnly {.pc, .reg x, .reg regF} s t

/-- The instructions that set PC themselves: jump, call, return, skip and the key wait (10_state.md R24,
40_cycle.md R107). -/
def setsPc : Instr → Bool
  | .ret | .jp _ | .call _ | .jpV0 _ | .seImm _ _ | .sneImm _ _ | .seReg _ _ | .sneReg _ _ | .skp _ | .sknp _
  | .ldKey _ => true
  | _ => false

/-- The registers that an instruction may write: its destination, and VF where it writes a flag (10_state.md R22). -/
def writesReg : Instr → Reg → Bool
  | .ldImm x _, y | .addImm x _, y | .ldReg x _, y | .orReg x _, y | .andReg x _, y | .xorReg x _, y | .rnd x _, y
  | .ldFromDt x, y | .ldKey x, y => y == x
  | .addReg x _, y | .subReg x _, y | .shr x _, y | .subnReg x _, y | .shl x _, y => y == x || y == regF
  | .drw _ _ _, y => y == regF
  | .loadRegs x, y => decide (y ≤ x)
  | _, _ => false

/-- Instructions executed one after the other, PC aside: as long as each answers a next state. -/
def execAll : List Instr → State → Result
  | [], s => .next s
  | i :: is, s =>
    match exec i s with
    | .next t => execAll is t
    | .fault r => .fault r
    | .refused r => .refused r

/-! The illegal words, written out from 30_encoding.md R76 on the nibbles of the word. -/

def illegalWord (w : Word) : Bool :=
  let f := w.toNat / 4096
  let n := w.toNat % 16
  let nn := w.toNat % 256
  ((f == 0x5 || f == 0x9) && n != 0) ||
  (f == 0x8 && (n == 0x8 || n == 0x9 || n == 0xA || n == 0xB || n == 0xC || n == 0xD || n == 0xF)) ||
  (f == 0xE && !(nn == 0x9E || nn == 0xA1)) ||
  (f == 0xF && !(nn == 0x07 || nn == 0x0A || nn == 0x15 || nn == 0x18 || nn == 0x1E || nn == 0x29 || nn == 0x33 ||
    nn == 0x55 || nn == 0x65))

/-! Sprites (44_display.md R194, R195): the bit that a sprite of `n` rows, read at I and drawn with its origin at
(ox, oy), has at the column `px` and the row `py`; the origin is not wrapped. -/

def spriteBit (s : State) (ox oy n px py : Nat) : Bool :=
  decide (ox ≤ px) && decide (px < ox + 8) && decide (oy ≤ py) && decide (py < oy + n) &&
    match s.memRead (s.i.toNat + (py - oy)) with
    | .ok b => b.getLsbD (7 - (px - ox))
    | .error _ => false

/-! Runs (60_exceptions.md R261, R265): the host's operations that change the state, and cycles, in any order and
number, from a constructed machine. -/

/-- What the host may do to a machine; its queries change nothing. -/
inductive HostOp where
  | runCycle
  | setPressedKeys (pressed : BitVec 16)
  | clearDirty
deriving DecidableEq, Repr

def HostOp.apply (s : State) : HostOp → Result
  | .runCycle => step s
  | .setPressedKeys pressed => .next (s.setPressedKeys pressed)
  | .clearDirty => .next s.clearDirty

/-- The states that runs reach. -/
inductive Reachable : State → Prop where
  | start (p : Params) (rom : List Byte) (s : State) (h : construct p rom = .ok s) : Reachable s
  | op (s t : State) (o : HostOp) (hs : Reachable s) (h : o.apply s = .next t) : Reachable t

/-- A run of host operations from `s` that ends, safely, in the running machine `t`: no fatal error was raised. -/
inductive SafeRun : List HostOp → State → State → Prop where
  | done (s : State) (h : s.status = .running) : SafeRun [] s s
  | op (o : HostOp) (os : List HostOp) (s u t : State) (h : o.apply s = .next u) (hu : u.status = .running)
      (ht : SafeRun os u t) : SafeRun (o :: os) s t

/-! Invariants. They say nothing of the free rest of a faulted machine (R253), but for the form of its memory. -/

/-- Memory keeps its canonical form. -/
def MemoryInv (s : State) : Prop := Memory.wf s.params s.mem

/-- Under `wrap`, I stays in 0..0xFFF (10_state.md R27). -/
def IndexInv (s : State) : Prop :=
  s.status = .running → s.params.addrPolicy = .wrap → s.i.toNat ≤ 0xFFF

/-- The word at PC is a `LD Vx, K`. -/
def AtKeyWait (s : State) : Prop := ∃ w x, s.fetch = .ok w ∧ decode w = .ok (.ldKey x)

/-- While the latch is Held or Released, PC stays on a `LD Vx, K` (45_keypad.md R216). -/
def KeyWaitInv (s : State) : Prop := s.status = .running → s.latch ≠ .idle → AtKeyWait s

/-- All of them. -/
structure MachineInv (s : State) : Prop where
  memory  : MemoryInv s
  index   : IndexInv s
  keyWait : KeyWaitInv s

end Sys2Proof.Machine
end

