-- ==== Sys2Proof/Certificates/Slice0/Obligations.lean ====
section
/-! DEFINITION. The statements for the provers. Each docstring names the rule of spec/ it formalises; where the spec marks
a rule as its own decision ([decision], [derived], from general knowledge), the docstring names that decision and the log
entry that carries it. -/

open Sys2Proof Sys2Proof.Machine

/-! Encoding (30_encoding.md). The bit patterns are the spec's decision D1 (log 11). -/

/-- Decoding an encoded well-formed instruction gives it back, with every operand at every value (R74, R75, D1). -/
def Obligations.DecodeOfEncodeIsIdentity : Prop := ∀ i : Instr, i.wf = true → decode (encode i) = .ok i

/-- A word that decodes is the encoding of what it decodes to: no bit of a recognised row is ignored (R77, D1). -/
def Obligations.EncodeOfDecodeIsIdentity : Prop :=
  ∀ (w : Word) (i : Instr), decode w = .ok i → i.wf = true ∧ encode i = w

/-- The illegal words of R76, and they alone, are rejected by name (D1). -/
def Obligations.IllegalWordsAreExactlyRejected : Prop :=
  ∀ w : Word,
    (illegalWord w = true → decode w = .error (.unknownInstruction w)) ∧
    (illegalWord w = false → ∃ i, decode w = .ok i)

/-- Words written out from the patterns of R74 (and R75's case values), one or more of each of the sixteen families (R71,
the high nibble), decode to their instructions (D1). -/
def Obligations.SampleWordsDecode : Prop :=
  decode 0b0000_0000_1110_0000 = .ok .cls ∧
  decode 0b0000_0000_1110_1110 = .ok .ret ∧
  decode 0b0000_0001_0010_0011 = .ok (.sys 0x123) ∧
  decode 0b0001_1010_1011_1100 = .ok (.jp 0xABC) ∧
  decode 0b0010_1010_1011_1100 = .ok (.call 0xABC) ∧
  decode 0b0011_0011_0001_0000 = .ok (.seImm 3 0x10) ∧
  decode 0b0100_0011_0001_1111 = .ok (.sneImm 3 0x1F) ∧
  decode 0b0101_0001_0010_0000 = .ok (.seReg 1 2) ∧
  decode 0b0110_1010_0100_0010 = .ok (.ldImm 10 0x42) ∧
  decode 0b0111_0010_0010_0000 = .ok (.addImm 2 0x20) ∧
  decode 0b1000_0101_0110_0110 = .ok (.shr 5 6) ∧
  decode 0b1001_0001_0010_0000 = .ok (.sneReg 1 2) ∧
  decode 0b1010_0010_1111_0000 = .ok (.ldI 0x2F0) ∧
  decode 0b1011_0011_0000_0001 = .ok (.jpV0 0x301) ∧
  decode 0b1100_0011_0000_1111 = .ok (.rnd 3 0x0F) ∧
  decode 0b1101_0001_0010_0101 = .ok (.drw 1 2 5) ∧
  decode 0b1110_0001_1010_0001 = .ok (.sknp 1) ∧
  decode 0b1111_0010_0101_0101 = .ok (.storeRegs 2) ∧
  decode 0b1111_1111_0001_0101 = .ok (.ldToDt 15)

/-! The cycle (40_cycle.md) and the fetch (20_memory.md). -/

/-- A step runs the decoded instruction: when the two bytes at PC decode to `i`, a running machine's step is `exec i` on
the state whose timers were decremented first (R100, R103, R104). -/
def Obligations.StepRunsDecodedInstruction : Prop :=
  ∀ (s : State) (hi lo : Byte) (i : Instr), s.status = .running →
    s.memRead s.pc.toNat = .ok hi → s.memRead (s.pc.toNat + 1) = .ok lo → decode (hi ++ lo) = .ok i →
    step s = exec i { s with dt := if s.dt = 0 then 0 else s.dt - 1, st := if s.st = 0 then 0 else s.st - 1 }

/-- The fetch reads the two bytes at PC, the first one high, and the ROM is a raw stream of such words (R52). -/
def Obligations.FetchIsBigEndian : Prop :=
  (∀ (s : State) (hi lo : Byte), s.memRead s.pc.toNat = .ok hi → s.memRead (s.pc.toNat + 1) = .ok lo →
    ∃ w, s.fetch = .ok w ∧ w.toNat = hi.toNat * 256 + lo.toNat) ∧
  (∀ (p : Params) (rom : List Byte) (s : State), construct p rom = .ok s →
    ∀ (k : Nat) (h : k + 1 < rom.length),
      ∃ w, ({ s with pc := BitVec.ofNat 16 (0x200 + k) } : State).fetch = .ok w ∧
        w.toNat = (rom[k]).toNat * 256 + (rom[k + 1]).toNat)

/-- A byte read at any address: modulo 4096 under `wrap`, and under `fault` an error above 0xFFF that names the address
(R51; decision D3, log 12). -/
def Obligations.AccessesFollowTheAddressPolicy : Prop :=
  ∀ (s : State) (a : Nat),
    (s.params.addrPolicy = .wrap → s.memRead a = .ok (s.byteAt (a % 4096))) ∧
    (s.params.addrPolicy = .fault → a ≤ 0xFFF → s.memRead a = .ok (s.byteAt a)) ∧
    (s.params.addrPolicy = .fault → 0xFFF < a → s.memRead a = .error (.addressOutOfRange a))

/-- A write puts its byte at the address that `ea` gives and leaves every other byte and every other piece of the state
as it was (R56). -/
def Obligations.WriteChangesOnlyItsByte : Prop :=
  ∀ (s t : State) (a : Nat) (b : Byte), s.memWrite a b = .ok t →
    ∃ e, ea s.params.addrPolicy a = .ok e ∧ t.byteAt e = b ∧ ChangesOnly {.byte e} s t

/-- Executing an illegal word is the fatal error UnknownInstruction, recorded with the word and the PC
(R76, R104, 60_exceptions.md R250, R251; D1; log 6). -/
def Obligations.IllegalWordIsFatal : Prop :=
  ∀ (s : State) (hi lo : Byte), s.status = .running →
    s.memRead s.pc.toNat = .ok hi → s.memRead (s.pc.toNat + 1) = .ok lo → illegalWord (hi ++ lo) = true →
    ∃ t, step s = .next t ∧
      t.status = .faulted { cause := .unknownInstruction, pc := s.pc, word := some (hi ++ lo) }

/-- Under `fault`, a fetch with PC + 1 > 0xFFF raises AddressOutOfRange, with no word (R103; decision D3, log 12); the
address recorded is the first one out of range (DEDUCED, log 24). -/
def Obligations.FetchOutOfRangeIsFatal : Prop :=
  ∀ s : State, s.status = .running → s.params.addrPolicy = .fault → 0xFFF < s.pc.toNat + 1 →
    ∃ t, step s = .next t ∧
      t.status = .faulted { cause := .addressOutOfRange (max s.pc.toNat 0x1000), pc := s.pc, word := none }

/-- A faulted machine has no step (R101, decision D18; the model's form of it is log 6). -/
def Obligations.FaultedMachineHasNoStep : Prop :=
  ∀ (s : State) (d : Diag), s.status = .faulted d → step s = .fault (.stopped d)

/-- A running machine always steps, and it goes on running unless exactly one of the errors of R250 stopped it, in the
order of R255: the fetch, the decode, or the one error that the decoded instruction can raise ([derived] from R100 and
R250). The diagnostic names the PC and the fetched word (R251). -/
def Obligations.RunningMachineStepsOrRaisesItsError : Prop :=
  ∀ s : State, s.status = .running →
    ∃ t, step s = .next t ∧
      (t.status = .running ∨
        ∃ d, t.status = .faulted d ∧ d.pc = s.pc ∧
          ((d.word = none ∧ s.fetch = .error d.cause) ∨
            ∃ w, d.word = some w ∧ s.fetch = .ok w ∧
              ((illegalWord w = true ∧ d.cause = .unknownInstruction) ∨
                ∃ i, decode w = .ok i ∧ CanRaise i s d.cause)))

/-- Under `wrap`, AddressOutOfRange never occurs (60_exceptions.md R250, decision D3). -/
def Obligations.WrapNeverRaisesAddressOutOfRange : Prop :=
  ∀ (s t : State) (d : Diag) (a : Nat), s.status = .running → s.params.addrPolicy = .wrap → step s = .next t →
    t.status = .faulted d → d.cause ≠ .addressOutOfRange a

/-- Each cycle that goes on running has decremented both timers once, saturating at 0, but for a timer that its own
instruction wrote; the host's operations leave them (46_timers.md R230, R234, R102). -/
def Obligations.TimersDecrementOncePerCycle : Prop :=
  (∀ (s t : State) (w : Word) (i : Instr), s.status = .running → s.fetch = .ok w → decode w = .ok i →
    step s = .next t → t.status = .running →
      ((∀ x, i ≠ .ldToDt x) → t.dt.toNat = s.dt.toNat - 1) ∧ ((∀ x, i ≠ .ldToSt x) → t.st.toNat = s.st.toNat - 1)) ∧
  (∀ (s t : State) (o : HostOp), o ≠ .runCycle → o.apply s = .next t → t.dt = s.dt ∧ t.st = s.st)

/-- PC advances by exactly 2 after an instruction that does not set it itself (10_state.md R24, R107). -/
def Obligations.PcAdvancesByTwo : Prop :=
  ∀ (i : Instr) (s t : State), s.status = .running → exec i s = .next t → t.status = .running → setsPc i = false →
    PcPlus 2 s t

/-! Invariants. -/

/-- Every step keeps the canonical form of memory (the model's own, log 26). -/
def Obligations.StepKeepsMemoryCanonical : Prop := ∀ s t : State, MemoryInv s → step s = .next t → MemoryInv t

/-- Under `wrap`, every step of a running machine keeps I in 0..0xFFF (10_state.md R27, decision D4, log 12). -/
def Obligations.StepKeepsIndexInRange : Prop := ∀ s t : State, IndexInv s → step s = .next t → IndexInv t

/-- A key wait is never left part-way: while the latch is Held or Released, PC stays on a `LD Vx, K`
(45_keypad.md R216, [derived]; decision D14, log 20). -/
def Obligations.StepKeepsKeyWait : Prop := ∀ s t : State, KeyWaitInv s → step s = .next t → KeyWaitInv t

/-- Every state that a run reaches, from any ROM, under any parameters and any host (60_exceptions.md R261, R265), meets
the invariants of memory, I and the key wait (R27, R216; log 12, 20, 26). -/
def Obligations.EveryRunKeepsTheInvariants : Prop := ∀ s : State, Reachable s → MachineInv s

/-- The machine after reset meets the invariants (R40; log 4, 26). -/
def Obligations.ResetMeetsTheInvariants : Prop := MachineInv State.reset

/-- Equal memories are equal data: canonical memories that hold the same byte at every address are the same list (the
model's own form, log 26). -/
def Obligations.CanonicalMemoriesAreEqual : Prop :=
  ∀ (p : Params) (m n : Memory), Memory.wf p m → Memory.wf p n →
    (∀ a < Config.memSize, Memory.read p m a = Memory.read p n a) → m = n

/-- No cycle and no host operation changes the parameters (00_scope.md R6; log 1). -/
def Obligations.ParametersNeverChange : Prop :=
  ∀ (s t : State) (o : HostOp), o.apply s = .next t → t.params = s.params

/-! Who reads and who writes what. -/

/-- No instruction reads or writes SP or a stack slot except `CALL` and `RET` (10_state.md R29): with another stack and
another SP, any other instruction does the same and leaves them. -/
def Obligations.OnlyCallAndRetUseTheStack : Prop :=
  ∀ (i : Instr) (s t : State) (sp : Fin 17) (stack : Vector Word 16), i ≠ .ret → (∀ a, i ≠ .call a) →
    s.status = .running → exec i s = .next t → t.status = .running →
    exec i { s with sp := sp, stack := stack } = .next { t with sp := sp, stack := stack } ∧
      t.sp = s.sp ∧ t.stack = s.stack

/-- No instruction reads `dirty` (R34) or ST (R30): with other values of the two, it does the same to everything else. -/
def Obligations.DirtyAndSoundTimerAreNeverRead : Prop :=
  ∀ (i : Instr) (s t : State) (dirty : Bool) (st : Byte), s.status = .running → exec i s = .next t →
    t.status = .running →
    ∃ u, exec i { s with st := st, display := { s.display with dirty := dirty } } = .next u ∧
      ChangesOnly {.dirty, .st} t u

/-- The framebuffer is written only by `CLS` and `DRW` (R33), and so is `dirty` among the instructions (R34). -/
def Obligations.OnlyClsAndDrwWriteTheDisplay : Prop :=
  ∀ (i : Instr) (s t : State), i ≠ .cls → (∀ x y n, i ≠ .drw x y n) → s.status = .running → exec i s = .next t →
    t.status = .running → t.display = s.display

/-- Only `LD B` and `LD [I]` write memory (20_memory.md R55, R173, R174): after any other instruction every byte reads as
before. -/
def Obligations.OnlyBcdAndBlockStoreWriteMemory : Prop :=
  ∀ (i : Instr) (s t : State), (∀ x, i ≠ .ldBcd x) → (∀ x, i ≠ .storeRegs x) → s.status = .running →
    exec i s = .next t → t.status = .running → ∀ a, t.byteAt a = s.byteAt a

/-- I is written only by `LD I`, `ADD I` and `LD F` (10_state.md R26, R176; decision D9, log 17). -/
def Obligations.OnlyThreeInstructionsWriteIndex : Prop :=
  ∀ (i : Instr) (s t : State), (∀ a, i ≠ .ldI a) → (∀ x, i ≠ .addI x) → (∀ x, i ≠ .ldFont x) → s.status = .running →
    exec i s = .next t → t.status = .running → t.i = s.i

/-- No instruction writes the key states (R35), and only `LD Vx, K` writes the latch (R36, 45_keypad.md R216). -/
def Obligations.OnlyTheKeyWaitWritesTheLatch : Prop :=
  ∀ (i : Instr) (s t : State), s.status = .running → exec i s = .next t → t.status = .running →
    (∀ k, t.isDown k = s.isDown k) ∧ ((∀ x, i ≠ .ldKey x) → t.latch = s.latch)

/-- A register is written only as the destination of an instruction, VF also as the flag of R146 to R150 and `DRW`
(10_state.md R22; decision D8, log 16). -/
def Obligations.RegistersAreWrittenOnlyAsDestinations : Prop :=
  ∀ (i : Instr) (s t : State) (y : Reg), s.status = .running → exec i s = .next t → t.status = .running →
    writesReg i y = false → t.reg y = s.reg y

/-! Register and arithmetic instructions (42_alu.md). -/

/-- `LD Vx, nn` (R140). -/
def Obligations.LoadImmediateResult : Prop :=
  ∀ (x : Reg) (nn : Byte) (s : State), ∃ t, exec (.ldImm x nn) s = .next t ∧ SetsReg x nn.toNat s t

/-- `ADD Vx, nn`: modulo 256, no carry (R141; decision D8, log 16). -/
def Obligations.AddImmediateResult : Prop :=
  ∀ (x : Reg) (nn : Byte) (s : State), ∃ t, exec (.addImm x nn) s = .next t ∧
    SetsReg x (((s.reg x).toNat + nn.toNat) % 256) s t

/-- `LD Vx, Vy` (R142). -/
def Obligations.CopyRegisterResult : Prop :=
  ∀ (x y : Reg) (s : State), ∃ t, exec (.ldReg x y) s = .next t ∧ SetsReg x (s.reg y).toNat s t

/-- `OR`, `AND`, `XOR`: bitwise, and VF stays unless it is Vx (R143, R144, R145; decision D8, log 16). -/
def Obligations.LogicalResults : Prop :=
  ∀ (x y : Reg) (s : State),
    (∃ t, exec (.orReg x y) s = .next t ∧ SetsReg x ((s.reg x).toNat ||| (s.reg y).toNat) s t) ∧
    (∃ t, exec (.andReg x y) s = .next t ∧ SetsReg x ((s.reg x).toNat &&& (s.reg y).toNat) s t) ∧
    (∃ t, exec (.xorReg x y) s = .next t ∧ SetsReg x ((s.reg x).toNat ^^^ (s.reg y).toNat) s t)

/-- `ADD Vx, Vy`: the sum modulo 256, VF the carry, and with x = F the sum stays (R146, R105, R106). -/
def Obligations.AddRegistersResult : Prop :=
  ∀ (x y : Reg) (s : State), ∃ t, exec (.addReg x y) s = .next t ∧
    SetsRegAndFlag x (((s.reg x).toNat + (s.reg y).toNat) % 256)
      (decide ((s.reg x).toNat + (s.reg y).toNat > 0xFF)) s t

/-- `SUB` and `SUBN`: the difference modulo 256, VF whether the minuend is strictly greater (R147, R149; decision D6,
log 14). -/
def Obligations.SubtractResults : Prop :=
  ∀ (x y : Reg) (s : State),
    (∃ t, exec (.subReg x y) s = .next t ∧
      SetsRegAndFlag x (((s.reg x).toNat + 256 - (s.reg y).toNat) % 256)
        (decide ((s.reg x).toNat > (s.reg y).toNat)) s t) ∧
    (∃ t, exec (.subnReg x y) s = .next t ∧
      SetsRegAndFlag x (((s.reg y).toNat + 256 - (s.reg x).toNat) % 256)
        (decide ((s.reg y).toNat > (s.reg x).toNat)) s t)

/-- `SHR` and `SHL`: Vx shifted by one, VF the bit pushed out, whatever y is (R148, R150; decision D7, log 15). -/
def Obligations.ShiftResults : Prop :=
  ∀ (x y : Reg) (s : State),
    (∃ t, exec (.shr x y) s = .next t ∧
      SetsRegAndFlag x ((s.reg x).toNat / 2) (decide ((s.reg x).toNat % 2 = 1)) s t) ∧
    (∃ t, exec (.shl x y) s = .next t ∧
      SetsRegAndFlag x ((s.reg x).toNat * 2 % 256) (decide ((s.reg x).toNat ≥ 128)) s t)

/-- `RND Vx, nn`: a fresh draw masked by nn, whatever the draw is (R151; decision D17; the draw is a free value,
log 7). -/
def Obligations.RandomResult : Prop :=
  ∀ (x : Reg) (nn : Byte) (s : State), ∃ t, exec (.rnd x nn) s = .next t ∧
    (t.reg x).toNat = (Config.randomByte s.fresh).toNat &&& nn.toNat ∧ t.fresh = s.fresh + 1 ∧ PcPlus 2 s t ∧
    ChangesOnly {.pc, .reg x, .fresh} s t

/-! Control flow (41_control_flow.md). -/

/-- `SYS` only advances PC, `JP` and `JP V0` set it (R120, decision D2, log 10; R122; R128, decision D27, log 29). -/
def Obligations.JumpResults : Prop :=
  ∀ (nnn : Addr12) (s : State),
    (∃ t, exec (.sys nnn) s = .next t ∧ PcPlus 2 s t ∧ ChangesOnly {.pc} s t) ∧
    (∃ t, exec (.jp nnn) s = .next t ∧ t.pc.toNat = nnn.toNat ∧ ChangesOnly {.pc} s t) ∧
    (∃ t, exec (.jpV0 nnn) s = .next t ∧ t.pc.toNat = nnn.toNat + (s.reg 0).toNat ∧ ChangesOnly {.pc} s t)

/-- `CALL nnn` pushes PC + 2 on a stack with room, and is fatal on a full one (R123; decision D5, log 13). -/
def Obligations.CallResult : Prop :=
  ∀ (nnn : Addr12) (s : State),
    (∀ h : s.sp.val < 16, ∃ t, exec (.call nnn) s = .next t ∧ t.pc.toNat = nnn.toNat ∧ t.sp.val = s.sp.val + 1 ∧
      (t.stack[s.sp.val]).toNat = (s.pc.toNat + 2) % 65536 ∧
      ChangesOnly {.pc, .sp, .slot ⟨s.sp.val, h⟩} s t) ∧
    (s.sp.val = 16 → ∃ t, exec (.call nnn) s = .next t ∧ t.status = fatalStatus s (.call nnn) .stackOverflow)

/-- `RET` pops the return address into PC as it is and leaves the slot, and is fatal on an empty stack (R121, R29; decision
D5, log 13; the fatal error as a next state: log 6). -/
def Obligations.RetResult : Prop :=
  ∀ s : State,
    (∀ h : 0 < s.sp.val, ∃ t, exec .ret s = .next t ∧ t.pc = s.stack[s.sp.val - 1] ∧ t.sp.val = s.sp.val - 1 ∧
      ChangesOnly {.pc, .sp} s t) ∧
    (s.sp.val = 0 → ∃ t, exec .ret s = .next t ∧ t.status = fatalStatus s .ret .stackUnderflow)

/-- Nested calls unwind: after any calls that the stack has room for and as many returns, PC is behind the first call and
SP has its value from before it (R121, R123; decision D5, log 13). -/
def Obligations.NestedCallsUnwind : Prop :=
  ∀ (a : Addr12) (as : List Addr12) (s : State), s.sp.val + (as.length + 1) ≤ 16 →
    ∃ t, execAll ((a :: as).map .call ++ List.replicate (as.length + 1) .ret) s = .next t ∧
      PcPlus 2 s t ∧ t.sp = s.sp ∧
      (∀ k : Fin 16, k.val < s.sp.val → t.stack[k.val] = s.stack[k.val])

/-- The four skips on registers and immediates: PC + 4 when taken, PC + 2 when not (R124 to R127, R111). -/
def Obligations.SkipResults : Prop :=
  ∀ (x y : Reg) (nn : Byte) (s : State),
    (∃ t, exec (.seImm x nn) s = .next t ∧ PcPlus (if s.reg x = nn then 4 else 2) s t ∧ ChangesOnly {.pc} s t) ∧
    (∃ t, exec (.sneImm x nn) s = .next t ∧ PcPlus (if s.reg x = nn then 2 else 4) s t ∧ ChangesOnly {.pc} s t) ∧
    (∃ t, exec (.seReg x y) s = .next t ∧ PcPlus (if s.reg x = s.reg y then 4 else 2) s t ∧ ChangesOnly {.pc} s t) ∧
    (∃ t, exec (.sneReg x y) s = .next t ∧ PcPlus (if s.reg x = s.reg y then 2 else 4) s t ∧ ChangesOnly {.pc} s t)

/-! Index register and memory (43_index_memory.md). -/

/-- `LD I`, `ADD I` and `LD F` write I, reduced as the address policy says (R170; R171, decision D4, log 12; R172,
decision D13, log 19). -/
def Obligations.IndexResults : Prop :=
  ∀ (nnn : Addr12) (x : Reg) (s : State),
    (∃ t, exec (.ldI nnn) s = .next t ∧ t.i.toNat = nnn.toNat ∧ PcPlus 2 s t ∧ ChangesOnly {.pc, .index} s t) ∧
    (∃ t, exec (.addI x) s = .next t ∧
      t.i.toNat = (s.i.toNat + (s.reg x).toNat) % (if s.params.addrPolicy = .wrap then 4096 else 65536) ∧
      PcPlus 2 s t ∧ ChangesOnly {.pc, .index} s t) ∧
    (∃ t, exec (.ldFont x) s = .next t ∧ t.i.toNat = s.params.fontBase.val + 5 * (s.reg x).toNat ∧
      PcPlus 2 s t ∧ ChangesOnly {.pc, .index} s t)

/-- `LD B, Vx` writes the three decimal digits at I, I + 1, I + 2 and no other byte (R173). -/
def Obligations.BcdResult : Prop :=
  ∀ (x : Reg) (s : State), InRange s 2 →
    ∃ t, exec (.ldBcd x) s = .next t ∧
      (∀ a, ea s.params.addrPolicy s.i.toNat = .ok a → (t.byteAt a).toNat = (s.reg x).toNat / 100) ∧
      (∀ a, ea s.params.addrPolicy (s.i.toNat + 1) = .ok a → (t.byteAt a).toNat = (s.reg x).toNat / 10 % 10) ∧
      (∀ a, ea s.params.addrPolicy (s.i.toNat + 2) = .ok a → (t.byteAt a).toNat = (s.reg x).toNat % 10) ∧
      PcPlus 2 s t ∧ ChangesOnly ({.pc} ∪ bytesFromIndex s 2) s t

/-- `LD [I], Vx` writes V0..Vx at I + 0, …, I + x and no other byte; I stays (R174; decision D9, log 17). -/
def Obligations.BlockStoreResult : Prop :=
  ∀ (x : Reg) (s : State), InRange s x.val →
    ∃ t, exec (.storeRegs x) s = .next t ∧
      (∀ k : Reg, k ≤ x → ∀ a, ea s.params.addrPolicy (s.i.toNat + k.val) = .ok a → t.byteAt a = s.reg k) ∧
      PcPlus 2 s t ∧ ChangesOnly ({.pc} ∪ bytesFromIndex s x.val) s t

/-- `LD Vx, [I]` reads V0..Vx from I + 0, …, I + x; I stays (R175; decision D9, log 17). -/
def Obligations.BlockLoadResult : Prop :=
  ∀ (x : Reg) (s : State), InRange s x.val →
    ∃ t, exec (.loadRegs x) s = .next t ∧
      (∀ k : Reg, k ≤ x → ∀ a, ea s.params.addrPolicy (s.i.toNat + k.val) = .ok a → t.reg k = s.byteAt a) ∧
      PcPlus 2 s t ∧ ChangesOnly ({.pc} ∪ {p | ∃ k : Reg, k ≤ x ∧ p = .reg k}) s t

/-- Under `fault`, the four instructions that access memory raise AddressOutOfRange when their last address is above
0xFFF (R173, R174, R175, 44_display.md R194; decision D3, log 12); the address recorded is the first one out of range
(DEDUCED, log 24). -/
def Obligations.AccessOutOfRangeIsFatal : Prop :=
  ∀ (i : Instr) (last : Nat) (s : State),
    ((∃ x, i = .ldBcd x ∧ last = 2) ∨ (∃ x, i = .storeRegs x ∧ last = x.val) ∨ (∃ x, i = .loadRegs x ∧ last = x.val) ∨
      ∃ x y n, i = .drw x y n ∧ n.val = last + 1) →
    s.params.addrPolicy = .fault → 0xFFF < s.i.toNat + last →
    ∃ t, exec i s = .next t ∧ t.status = fatalStatus s i (.addressOutOfRange (max s.i.toNat 0x1000))

/-- A stored byte is fetched at once: when `LD [I], Vx` stores V[j] and V[k] where the next instruction's two bytes lie,
the next fetch reads them (20_memory.md R63, 70_reset_and_hazards.md R285, [derived]). -/
def Obligations.StoredBytesAreFetched : Prop :=
  ∀ (x j k : Reg) (s t : State), InRange s x.val → exec (.storeRegs x) s = .next t → j ≤ x → k ≤ x →
    ea s.params.addrPolicy t.pc.toNat = ea s.params.addrPolicy (s.i.toNat + j.val) →
    ea s.params.addrPolicy (t.pc.toNat + 1) = ea s.params.addrPolicy (s.i.toNat + k.val) →
    t.fetch = .ok (s.reg j ++ s.reg k)

/-! Display (44_display.md). -/

/-- `CLS` turns every pixel off and clears the dirty flag (R192, R193; C2, log 22). -/
def Obligations.ClearScreenResult : Prop :=
  ∀ s : State, ∃ t, exec .cls s = .next t ∧ (∀ px py, t.display.pixel px py = false) ∧ t.display.dirty = false ∧
    PcPlus 2 s t ∧ ChangesOnly ({.pc, .dirty} ∪ {p | ∃ px py, p = .pixel px py}) s t

/-- `DRW Vx, Vy, n`: the framebuffer is exclusive-ored with the clipped sprite, VF is 1 exactly when an on pixel was
turned off, and dirty is set exactly when a pixel was toggled (R194, R195, R196, R191; decisions D10, D11, log 18). -/
def Obligations.DrawResult : Prop :=
  ∀ (x y : Reg) (n : Height) (s : State), (n.val = 0 ∨ InRange s (n.val - 1)) →
    ∃ t, exec (.drw x y n) s = .next t ∧
      (∀ px py, t.display.pixel px py =
        (s.display.pixel px py ^^ spriteBit s (s.reg x).toNat (s.reg y).toNat n.val px.val py.val)) ∧
      ((t.reg regF).toNat = 0 ∨ (t.reg regF).toNat = 1) ∧
      ((t.reg regF).toNat = 1 ↔ ∃ (px : Fin 64) (py : Fin 32),
        spriteBit s (s.reg x).toNat (s.reg y).toNat n.val px.val py.val = true ∧ s.display.pixel px py = true) ∧
      (t.display.dirty = true ↔ s.display.dirty = true ∨ ∃ (px : Fin 64) (py : Fin 32),
        spriteBit s (s.reg x).toNat (s.reg y).toNat n.val px.val py.val = true) ∧
      PcPlus 2 s t ∧ ChangesOnly ({.pc, .dirty, .reg regF} ∪ {p | ∃ px py, p = .pixel px py}) s t

/-- Drawing the same sprite twice at the same place gives the framebuffer back, and the second draw reports a collision
exactly when the first left a sprite pixel on (R196, [derived]; log 18). The coordinates are not in VF, which the first
draw writes. -/
def Obligations.DrawTwiceRestores : Prop :=
  ∀ (x y : Reg) (n : Height) (s : State), x ≠ regF → y ≠ regF → (n.val = 0 ∨ InRange s (n.val - 1)) →
    ∃ t u, exec (.drw x y n) s = .next t ∧ exec (.drw x y n) t = .next u ∧
      (∀ px py, u.display.pixel px py = s.display.pixel px py) ∧
      ((u.reg regF).toNat = 1 ↔ ∃ (px : Fin 64) (py : Fin 32),
        spriteBit s (s.reg x).toNat (s.reg y).toNat n.val px.val py.val = true ∧ t.display.pixel px py = true)

/-! Keypad (45_keypad.md). -/

/-- `SKP` and `SKNP`: PC + 4 or PC + 2 by the state of key V[x]; a value over 0x0F is fatal (R212, R213; decision D15,
log 21). -/
def Obligations.KeySkipResults : Prop :=
  ∀ (x : Reg) (s : State),
    (∀ k : Key, (s.reg x).toNat = k.val →
      (∃ t, exec (.skp x) s = .next t ∧ PcPlus (if s.isDown k = true then 4 else 2) s t ∧ ChangesOnly {.pc} s t) ∧
      (∃ t, exec (.sknp x) s = .next t ∧ PcPlus (if s.isDown k = true then 2 else 4) s t ∧ ChangesOnly {.pc} s t)) ∧
    (0x0F < (s.reg x).toNat →
      (∃ t, exec (.skp x) s = .next t ∧ t.status = fatalStatus s (.skp x) (.keyIndexOutOfRange (s.reg x))) ∧
      (∃ t, exec (.sknp x) s = .next t ∧ t.status = fatalStatus s (.sknp x) (.keyIndexOutOfRange (s.reg x))))

/-- `LD Vx, K`: a released key is stored and the latch cleared; otherwise PC stays, and an idle latch takes the lowest
key that is down (R214, R215; decision D14, log 20). -/
def Obligations.KeyWaitResult : Prop :=
  ∀ (x : Reg) (s : State),
    (∀ j, s.latch = .released j → ∃ t, exec (.ldKey x) s = .next t ∧ (t.reg x).toNat = j.val ∧ t.latch = .idle ∧
      PcPlus 2 s t ∧ ChangesOnly {.pc, .reg x, .latch} s t) ∧
    (∀ j, s.latch = .held j → ∃ t, exec (.ldKey x) s = .next t ∧ ChangesOnly ∅ s t) ∧
    (s.latch = .idle → (∀ k, s.isDown k = false) → ∃ t, exec (.ldKey x) s = .next t ∧ ChangesOnly ∅ s t) ∧
    (∀ k, s.latch = .idle → s.isDown k = true → (∀ j, j < k → s.isDown j = false) →
      ∃ t, exec (.ldKey x) s = .next t ∧ t.latch = .held k ∧ ChangesOnly {.latch} s t)

/-- `set_pressed_keys(S)` replaces the whole snapshot, and moves a held key that is not in S to Released; Idle and
Released stay (R211, R215; decision D14, log 20). -/
def Obligations.SetPressedKeysResult : Prop :=
  ∀ (pressed : BitVec 16) (s : State),
    (∀ k : Key, (s.setPressedKeys pressed).isDown k = pressed.getLsbD k.val) ∧
    (∀ j : Key, s.latch = .held j → pressed.getLsbD j.val = false → (s.setPressedKeys pressed).latch = .released j) ∧
    (∀ j : Key, s.latch = .held j → pressed.getLsbD j.val = true → (s.setPressedKeys pressed).latch = .held j) ∧
    ((∀ j, s.latch ≠ .held j) → (s.setPressedKeys pressed).latch = s.latch) ∧
    ChangesOnly ({.latch} ∪ {p | ∃ k, p = .key k}) s (s.setPressedKeys pressed)

/-! Timers (46_timers.md). -/

/-- `LD Vx, DT`, `LD DT, Vx` and `LD ST, Vx` (R231, R232, R233), on the state that the cycle's decrement left. -/
def Obligations.TimerResults : Prop :=
  ∀ (x : Reg) (s : State),
    (∃ t, exec (.ldFromDt x) s = .next t ∧ SetsReg x s.dt.toNat s t) ∧
    (∃ t, exec (.ldToDt x) s = .next t ∧ t.dt = s.reg x ∧ PcPlus 2 s t ∧ ChangesOnly {.pc, .dt} s t) ∧
    (∃ t, exec (.ldToSt x) s = .next t ∧ t.st = s.reg x ∧ PcPlus 2 s t ∧ ChangesOnly {.pc, .st} s t)

/-! Construction and the host (70_reset_and_hazards.md, 60_exceptions.md). -/

/-- `construct` accepts a ROM of at most 3583 bytes, with the font at FONT_BASE, the ROM at 0x200 and zero elsewhere, and
rejects every longer one (R280, R281, R57; decision D26, log 28). The other fields are those of `State.initial` (R40,
log 4). -/
def Obligations.ConstructResult : Prop :=
  ∀ (p : Params) (rom : List Byte),
    (rom.length ≤ 3583 → ∃ s, construct p rom = .ok s ∧
      (∀ (k : Nat) (h : k < rom.length), s.byteAt (0x200 + k) = rom[k]) ∧
      (∀ (k : Nat) (h : k < 80), s.byteAt (p.fontBase.val + k) = p.fontData[k]) ∧
      (∀ a, (a < 0x200 ∨ 0x200 + rom.length ≤ a) → (a < p.fontBase.val ∨ p.fontBase.val + 80 ≤ a) → s.byteAt a = 0) ∧
      s = { State.initial p with mem := s.mem }) ∧
    (3584 ≤ rom.length → construct p rom = .error .romTooLarge)

/-- The state after reset: the values of R40 (decisions D16 and D19, log 4 and 22), the default parameters (R6), and the
machine that `construct` builds from a ROM of length 0 (R280, R281; log 8). -/
def Obligations.ResetState : Prop :=
  (∀ x, State.reset.reg x = 0) ∧ State.reset.i = 0 ∧ State.reset.pc = 0x200 ∧ State.reset.sp = 0 ∧
  (∀ k : Fin 16, State.reset.stack[k.val] = 0) ∧ State.reset.dt = 0 ∧ State.reset.st = 0 ∧
  (∀ px py, State.reset.display.pixel px py = false) ∧ State.reset.display.dirty = false ∧
  (∀ k, State.reset.isDown k = false) ∧ State.reset.latch = .idle ∧ State.reset.status = .running ∧
  State.reset.params.addrPolicy = .wrap ∧ construct defaultParams [] = .ok State.reset

/-- `is_halted()` reports two zero bytes at PC (40_cycle.md R110; decision D25, log 27), and it stops nothing: a running
machine that it holds of steps past the word 0x0000, a `SYS` (R110, R120; decision D2, log 10). -/
def Obligations.HaltedIsOnlyAQuery : Prop :=
  ∀ s : State,
    (s.isHalted = true ↔ s.memRead s.pc.toNat = .ok 0 ∧ s.memRead (s.pc.toNat + 1) = .ok 0) ∧
    (s.isHalted = true → s.status = .running → ∃ t, step s = .next t ∧ PcPlus 2 s t ∧ ChangesOnly {.pc, .dt, .st} s t)

/-- The host's display port: the framebuffer it reads is that of the machine, it reads the dirty flag, and clearing the
flag changes nothing else (44_display.md R197). -/
def Obligations.DisplayPortResult : Prop :=
  ∀ s : State,
    (∀ (px : Fin 64) (py : Fin 32), (s.readFramebuffer[py.val])[px.val] = s.display.pixel px py) ∧
    s.readDirty = s.display.dirty ∧ s.clearDirty.readDirty = false ∧ ChangesOnly {.dirty} s s.clearDirty

/-! The three invariants together, under everything that a host can do. -/

/-- From every state that meets the invariants of memory, I and the key wait, each operation of the host, a cycle among
them, leads only to states that meet them; and every constructed machine meets them (60_exceptions.md R261, R280; R27,
R216; log 12, 20, 26). -/
def Obligations.EveryOperationKeepsTheInvariants : Prop :=
  (∀ (s t : State) (o : HostOp), MachineInv s → o.apply s = .next t → MachineInv t) ∧
  (∀ (p : Params) (rom : List Byte) (s : State), construct p rom = .ok s → MachineInv s)
end

