-- ==== Sys2Proof/Laws/Decode.lean ====
section
/-! SUPPORT. The fields of the formats (30_encoding.md R71, R73): what each field of a formatted word reads, and that a
word is the format of its fields. -/

namespace Sys2Proof

/-! Each field as an arithmetic expression of the word. -/

theorem fieldFamily_eq (w : Word) : fieldFamily w = w.toNat / 4096 := by
  simp only [fieldFamily, BitVec.extractLsb'_toNat, Nat.shiftRight_eq_div_pow]; omega

theorem fieldX_val (w : Word) : (fieldX w).val = w.toNat / 256 % 16 := by
  simp only [fieldX, BitVec.val_toFin, BitVec.extractLsb'_toNat, Nat.shiftRight_eq_div_pow]

theorem fieldY_val (w : Word) : (fieldY w).val = w.toNat / 16 % 16 := by
  simp only [fieldY, BitVec.val_toFin, BitVec.extractLsb'_toNat, Nat.shiftRight_eq_div_pow]

theorem fieldN_val (w : Word) : (fieldN w).val = w.toNat % 16 := by
  simp only [fieldN, BitVec.val_toFin, BitVec.extractLsb'_toNat, Nat.shiftRight_eq_div_pow]; omega

theorem fieldNN_toNat (w : Word) : (fieldNN w).toNat = w.toNat % 256 := by
  simp only [fieldNN, BitVec.extractLsb'_toNat, Nat.shiftRight_eq_div_pow]; omega

theorem fieldNNN_toNat (w : Word) : (fieldNNN w).toNat = w.toNat % 4096 := by
  simp only [fieldNNN, BitVec.extractLsb'_toNat, Nat.shiftRight_eq_div_pow]; omega

theorem wordOf_toNat (hi lo : Byte) : (wordOf hi lo).toNat = hi.toNat * 256 + lo.toNat := by
  simp only [wordOf, BitVec.toNat_append]
  rw [← Nat.shiftLeft_add_eq_or_of_lt lo.isLt, Nat.shiftLeft_eq]

/-! Each format as an arithmetic expression of its fields. -/

theorem formatNNN_toNat (f : BitVec 4) (a : Addr12) : (formatNNN f a).toNat = f.toNat * 4096 + a.toNat := by
  simp only [formatNNN, BitVec.toNat_append]
  rw [← Nat.shiftLeft_add_eq_or_of_lt a.isLt, Nat.shiftLeft_eq]

theorem formatXNN_toNat (f : BitVec 4) (x : Reg) (nn : Byte) :
    (formatXNN f x nn).toNat = f.toNat * 4096 + x.val * 256 + nn.toNat := by
  simp only [formatXNN, BitVec.toNat_append]
  rw [← Nat.shiftLeft_add_eq_or_of_lt nn.isLt,
    ← Nat.shiftLeft_add_eq_or_of_lt (by simp only [BitVec.toNat_ofFin]; omega)]
  simp only [Nat.shiftLeft_eq, BitVec.toNat_ofFin]; omega

theorem formatXYN_toNat (f : BitVec 4) (x y : Reg) (n : Fin 16) :
    (formatXYN f x y n).toNat = f.toNat * 4096 + x.val * 256 + y.val * 16 + n.val := by
  simp only [formatXYN, BitVec.toNat_append]
  rw [← Nat.shiftLeft_add_eq_or_of_lt (by simp only [BitVec.toNat_ofFin]; omega),
    ← Nat.shiftLeft_add_eq_or_of_lt (by simp only [BitVec.toNat_ofFin]; omega),
    ← Nat.shiftLeft_add_eq_or_of_lt (by simp only [BitVec.toNat_ofFin]; omega)]
  simp only [Nat.shiftLeft_eq, BitVec.toNat_ofFin]; omega

/-! The fields of a formatted word. -/

section
variable (f : BitVec 4) (x y : Reg) (n : Fin 16) (nn : Byte) (a : Addr12)

@[simp] theorem fieldFamily_formatNNN : fieldFamily (formatNNN f a) = f.toNat := by
  rw [fieldFamily_eq, formatNNN_toNat]; omega
@[simp] theorem fieldFamily_formatXNN : fieldFamily (formatXNN f x nn) = f.toNat := by
  rw [fieldFamily_eq, formatXNN_toNat]; omega
@[simp] theorem fieldFamily_formatXYN : fieldFamily (formatXYN f x y n) = f.toNat := by
  rw [fieldFamily_eq, formatXYN_toNat]; omega
@[simp] theorem fieldNNN_formatNNN : fieldNNN (formatNNN f a) = a := by
  apply BitVec.eq_of_toNat_eq; rw [fieldNNN_toNat, formatNNN_toNat]; omega
@[simp] theorem fieldX_formatXNN : fieldX (formatXNN f x nn) = x := by
  apply Fin.ext; rw [fieldX_val, formatXNN_toNat]; omega
@[simp] theorem fieldNN_formatXNN : fieldNN (formatXNN f x nn) = nn := by
  apply BitVec.eq_of_toNat_eq; rw [fieldNN_toNat, formatXNN_toNat]; omega
@[simp] theorem fieldX_formatXYN : fieldX (formatXYN f x y n) = x := by
  apply Fin.ext; rw [fieldX_val, formatXYN_toNat]; omega
@[simp] theorem fieldY_formatXYN : fieldY (formatXYN f x y n) = y := by
  apply Fin.ext; rw [fieldY_val, formatXYN_toNat]; omega
@[simp] theorem fieldN_formatXYN : fieldN (formatXYN f x y n) = n := by
  apply Fin.ext; rw [fieldN_val, formatXYN_toNat]; omega

end

/-! A word of a family is the format of its fields. -/

theorem formatNNN_fields {w : Word} {f : BitVec 4} (h : fieldFamily w = f.toNat) : formatNNN f (fieldNNN w) = w := by
  apply BitVec.eq_of_toNat_eq
  rw [formatNNN_toNat, fieldNNN_toNat, ← h, fieldFamily_eq]; omega

theorem formatXNN_fields {w : Word} {f : BitVec 4} {nn : Byte} (h : fieldFamily w = f.toNat) (hn : fieldNN w = nn) :
    formatXNN f (fieldX w) nn = w := by
  apply BitVec.eq_of_toNat_eq
  rw [formatXNN_toNat, ← hn, fieldNN_toNat, fieldX_val, ← h, fieldFamily_eq]; omega

theorem formatXYN_fields {w : Word} {f : BitVec 4} {n : Fin 16} (h : fieldFamily w = f.toNat) (hn : fieldN w = n) :
    formatXYN f (fieldX w) (fieldY w) n = w := by
  apply BitVec.eq_of_toNat_eq
  rw [formatXYN_toNat, ← hn, fieldN_val, fieldX_val, fieldY_val, ← h, fieldFamily_eq]; omega

theorem fieldFamily_lt (w : Word) : fieldFamily w < 16 := by rw [fieldFamily_eq]; omega

/-- The two bytes of a word make the word again. -/
@[simp] theorem wordOf_bytes (w : Word) : wordOf (w.extractLsb' 8 8) (w.extractLsb' 0 8) = w := by
  apply BitVec.eq_of_toNat_eq
  rw [wordOf_toNat, BitVec.extractLsb'_toNat, BitVec.extractLsb'_toNat]
  simp only [Nat.shiftRight_eq_div_pow]; omega

theorem decodeTableWord_eq (nbits w : Nat) :
    decodeTableWord nbits w =
      match decode (tableWord nbits w) with
      | .ok i => some i
      | .error _ => none := by
  simp only [decodeTableWord, decodeBytes, wordOf_bytes]
  cases decode (tableWord nbits w) <;> rfl

end Sys2Proof
end

