-- ==== Sys2Proof/Laws/Memory.lean ====
section
/-! SUPPORT. The laws of memory: a read after a write (20_memory.md R56), and the canonical form. The read laws hold of
every list, canonical or not. -/

namespace Sys2Proof.Machine

variable (p : Params)

/-! Reading. -/

@[simp] theorem Memory.read_nil (a : Nat) : Memory.read p [] a = resetByte p a := rfl

theorem Memory.read_cons (c : Host.Cell) (m : Memory) (a : Nat) :
    Memory.read p (c :: m) a = if a = c.1 then c.2 else Memory.read p m a := rfl

/-- An address that no entry names reads as its construction value. -/
theorem Memory.read_unlisted (m : Memory) (a : Nat) (h : ∀ c ∈ m, c.1 ≠ a) :
    Memory.read p m a = resetByte p a := by
  induction m with
  | nil => rfl
  | cons c m ih =>
    rw [Memory.read_cons, if_neg fun e => h c List.mem_cons_self e.symm]
    exact ih fun d hd => h d (List.mem_cons_of_mem _ hd)

theorem Memory.read_filter_ne (m : Memory) (a b : Nat) (h : b ≠ a) :
    Memory.read p (m.filter fun c => c.1 != a) b = Memory.read p m b := by
  induction m with
  | nil => rfl
  | cons c m ih =>
    by_cases hc : c.1 = a
    · simp [hc, Memory.read_cons, h, ih]
    · simp [hc, Memory.read_cons, ih]

theorem Memory.read_insert (c : Host.Cell) (m : Memory) (a : Nat) (h : ∀ d ∈ m, d.1 ≠ c.1) :
    Memory.read p (Memory.insert c m) a = if a = c.1 then c.2 else Memory.read p m a := by
  induction m with
  | nil => rfl
  | cons d m ih =>
    have ih := ih fun e he => h e (List.mem_cons_of_mem _ he)
    have hd := h d List.mem_cons_self
    simp only [Memory.insert]
    split
    · rfl
    · rw [Memory.read_cons, ih, Memory.read_cons]
      by_cases ha : a = c.1
      · simp [ha, Ne.symm hd]
      · simp [ha]

theorem Memory.ne_of_mem_filter (m : Memory) (a : Nat) : ∀ c ∈ m.filter fun c => c.1 != a, c.1 ≠ a := by
  intro c hc
  simpa using (List.mem_filter.1 hc).2

/-- A read after a write: the written byte at its address, every other byte as before. -/
theorem Memory.read_write (m : Memory) (a b : Nat) (v : Byte) :
    Memory.read p (Memory.write p a v m) b = if b = a then v else Memory.read p m b := by
  simp only [Memory.write]
  split
  · next hv =>
    by_cases hb : b = a
    · rw [if_pos hb, hb, hv]; exact Memory.read_unlisted p _ a (Memory.ne_of_mem_filter m a)
    · rw [if_neg hb]; exact Memory.read_filter_ne p m a b hb
  · rw [Memory.read_insert p _ _ _ (Memory.ne_of_mem_filter m a)]
    by_cases hb : b = a
    · simp [hb]
    · simp [hb, Memory.read_filter_ne p m a b hb]

@[simp] theorem Memory.read_write_same (m : Memory) (a : Nat) (v : Byte) :
    Memory.read p (Memory.write p a v m) a = v := by simp [Memory.read_write]

theorem Memory.read_write_other (m : Memory) (a b : Nat) (v : Byte) (h : b ≠ a) :
    Memory.read p (Memory.write p a v m) b = Memory.read p m b := by simp [Memory.read_write, h]

/-- The ROM copy: byte k of the list at `a + k`, every other byte as before. -/
theorem Memory.read_writeList (bs : List Byte) : ∀ (m : Memory) (a b : Nat),
    Memory.read p (Memory.writeList p a bs m) b =
      if h : a ≤ b ∧ b < a + bs.length then bs[b - a]'(by omega) else Memory.read p m b := by
  induction bs with
  | nil => intro m a b; simp [Memory.writeList]
  | cons v bs ih =>
    intro m a b
    rw [Memory.writeList, ih, Memory.read_write]
    by_cases hb : b = a
    · subst hb; simp
    · by_cases hr : a + 1 ≤ b ∧ b < a + 1 + bs.length
      · have h2 : a ≤ b ∧ b < a + (bs.length + 1) := by omega
        rw [dif_pos hr, dif_pos (by simpa using h2)]
        have : b - a = (b - (a + 1)) + 1 := by omega
        simp [this]
      · have h2 : ¬ (a ≤ b ∧ b < a + (v :: bs).length) := by simp only [List.length_cons]; omega
        rw [dif_neg hr, dif_neg h2, if_neg hb]

/-! The canonical form. -/

theorem Memory.wf_nil : Memory.wf p [] := by simp [Memory.wf]

theorem Memory.wf_filter (m : Memory) (f : Host.Cell → Bool) (h : Memory.wf p m) : Memory.wf p (m.filter f) :=
  ⟨h.1.filter f, fun c hc => h.2 c (List.mem_filter.1 hc).1⟩

theorem Memory.mem_insert (c d : Host.Cell) (m : Memory) : d ∈ Memory.insert c m ↔ d = c ∨ d ∈ m := by
  induction m with
  | nil => simp [Memory.insert]
  | cons e m ih =>
    simp only [Memory.insert]
    split
    · simp
    · simp only [List.mem_cons, ih]; tauto

theorem Memory.pairwise_insert (c : Host.Cell) (m : Memory) (h : m.Pairwise fun c d => c.1 < d.1)
    (hc : ∀ d ∈ m, d.1 ≠ c.1) : (Memory.insert c m).Pairwise fun c d => c.1 < d.1 := by
  induction m with
  | nil => simp [Memory.insert]
  | cons e m ih =>
    have hm := List.pairwise_cons.1 h
    simp only [Memory.insert]
    split
    · next hlt =>
      refine List.pairwise_cons.2 ⟨fun d hd => ?_, h⟩
      rcases List.mem_cons.1 hd with rfl | hd
      · exact hlt
      · exact lt_trans hlt (hm.1 d hd)
    · next hge =>
      refine List.pairwise_cons.2 ⟨fun d hd => ?_, ih hm.2 fun d hd => hc d (List.mem_cons_of_mem _ hd)⟩
      rcases (Memory.mem_insert c d m).1 hd with rfl | hd
      · have := hc e List.mem_cons_self; omega
      · exact hm.1 d hd

/-- A write keeps the canonical form. -/
theorem Memory.wf_write (m : Memory) (a : Nat) (v : Byte) (ha : a < Config.memSize) (h : Memory.wf p m) :
    Memory.wf p (Memory.write p a v m) := by
  have hf := Memory.wf_filter p m (fun c => c.1 != a) h
  simp only [Memory.write]
  split
  · exact hf
  · next hv =>
    refine ⟨Memory.pairwise_insert _ _ hf.1 (Memory.ne_of_mem_filter m a), fun c hc => ?_⟩
    rcases (Memory.mem_insert _ _ _).1 hc with rfl | hc
    · exact ⟨ha, hv⟩
    · exact hf.2 c hc

theorem Memory.wf_writeList (bs : List Byte) : ∀ (m : Memory) (a : Nat), a + bs.length ≤ Config.memSize →
    Memory.wf p m → Memory.wf p (Memory.writeList p a bs m) := by
  induction bs with
  | nil => intro m a _ h; exact h
  | cons v bs ih =>
    intro m a ha h
    simp only [List.length_cons] at ha
    exact ih _ _ (by omega) (Memory.wf_write p m a v (by omega) h)

theorem Memory.mem_ofBytes (f : Nat → Byte) (c : Host.Cell) :
    c ∈ Memory.ofBytes p f ↔ c.1 < Config.memSize ∧ c.2 = f c.1 ∧ f c.1 ≠ resetByte p c.1 := by
  obtain ⟨a, v⟩ := c
  unfold Memory.ofBytes
  simp only [List.mem_filterMap, List.mem_range]
  constructor
  · rintro ⟨b, hb, h⟩
    split at h
    · cases h
    · next hne =>
      simp only [Option.some.injEq, Prod.mk.injEq] at h
      obtain ⟨rfl, rfl⟩ := h
      exact ⟨hb, rfl, hne⟩
  · rintro ⟨ha, rfl, hne⟩
    exact ⟨a, ha, by simp only [if_neg hne]⟩

/-- The memory of given bytes is canonical. -/
theorem Memory.wf_ofBytes (f : Nat → Byte) : Memory.wf p (Memory.ofBytes p f) := by
  refine ⟨?_, fun c hc => ?_⟩
  · unfold Memory.ofBytes
    refine List.Pairwise.filterMap _ ?_ (List.pairwise_lt_range (n := Config.memSize))
    intro a b hab c hc d hd
    simp only [Option.ite_none_left_eq_some, Option.some.injEq] at hc hd
    rw [← hc.2, ← hd.2]; exact hab
  · obtain ⟨h1, h2, h3⟩ := (Memory.mem_ofBytes p f c).1 hc
    exact ⟨h1, h2 ▸ h3⟩

end Sys2Proof.Machine
end

