-- ==== Sys2Proof/Laws/State.lean ====
section
/-! SUPPORT. One lemma per field per update of `State`, each true by `rfl`, so that no proof unfolds a record update. -/

namespace Sys2Proof.Machine

/-! `State.setReg` -/

@[simp] theorem State.setReg_v (s : State) (x : Reg) (b : Byte) : (s.setReg x b).v = s.v.set x.val b := rfl
@[simp] theorem State.setReg_i (s : State) (x : Reg) (b : Byte) : (s.setReg x b).i = s.i := rfl
@[simp] theorem State.setReg_pc (s : State) (x : Reg) (b : Byte) : (s.setReg x b).pc = s.pc := rfl
@[simp] theorem State.setReg_sp (s : State) (x : Reg) (b : Byte) : (s.setReg x b).sp = s.sp := rfl
@[simp] theorem State.setReg_stack (s : State) (x : Reg) (b : Byte) : (s.setReg x b).stack = s.stack := rfl
@[simp] theorem State.setReg_dt (s : State) (x : Reg) (b : Byte) : (s.setReg x b).dt = s.dt := rfl
@[simp] theorem State.setReg_st (s : State) (x : Reg) (b : Byte) : (s.setReg x b).st = s.st := rfl
@[simp] theorem State.setReg_mem (s : State) (x : Reg) (b : Byte) : (s.setReg x b).mem = s.mem := rfl
@[simp] theorem State.setReg_display (s : State) (x : Reg) (b : Byte) : (s.setReg x b).display = s.display := rfl
@[simp] theorem State.setReg_keys (s : State) (x : Reg) (b : Byte) : (s.setReg x b).keys = s.keys := rfl
@[simp] theorem State.setReg_latch (s : State) (x : Reg) (b : Byte) : (s.setReg x b).latch = s.latch := rfl
@[simp] theorem State.setReg_status (s : State) (x : Reg) (b : Byte) : (s.setReg x b).status = s.status := rfl
@[simp] theorem State.setReg_params (s : State) (x : Reg) (b : Byte) : (s.setReg x b).params = s.params := rfl
@[simp] theorem State.setReg_fresh (s : State) (x : Reg) (b : Byte) : (s.setReg x b).fresh = s.fresh := rfl

/-! `State.setIndex` -/

@[simp] theorem State.setIndex_v (s : State) (a : Nat) : (s.setIndex a).v = s.v := rfl
@[simp] theorem State.setIndex_i (s : State) (a : Nat) : (s.setIndex a).i = indexReduced s.params.addrPolicy a := rfl
@[simp] theorem State.setIndex_pc (s : State) (a : Nat) : (s.setIndex a).pc = s.pc := rfl
@[simp] theorem State.setIndex_sp (s : State) (a : Nat) : (s.setIndex a).sp = s.sp := rfl
@[simp] theorem State.setIndex_stack (s : State) (a : Nat) : (s.setIndex a).stack = s.stack := rfl
@[simp] theorem State.setIndex_dt (s : State) (a : Nat) : (s.setIndex a).dt = s.dt := rfl
@[simp] theorem State.setIndex_st (s : State) (a : Nat) : (s.setIndex a).st = s.st := rfl
@[simp] theorem State.setIndex_mem (s : State) (a : Nat) : (s.setIndex a).mem = s.mem := rfl
@[simp] theorem State.setIndex_display (s : State) (a : Nat) : (s.setIndex a).display = s.display := rfl
@[simp] theorem State.setIndex_keys (s : State) (a : Nat) : (s.setIndex a).keys = s.keys := rfl
@[simp] theorem State.setIndex_latch (s : State) (a : Nat) : (s.setIndex a).latch = s.latch := rfl
@[simp] theorem State.setIndex_status (s : State) (a : Nat) : (s.setIndex a).status = s.status := rfl
@[simp] theorem State.setIndex_params (s : State) (a : Nat) : (s.setIndex a).params = s.params := rfl
@[simp] theorem State.setIndex_fresh (s : State) (a : Nat) : (s.setIndex a).fresh = s.fresh := rfl

/-! `State.setFlagThenReg` -/

@[simp] theorem State.setFlagThenReg_v (s : State) (c : Bool) (x : Reg) (b : Byte) : (s.setFlagThenReg c x b).v = (s.v.set 15 (flagByte c)).set x.val b := rfl
@[simp] theorem State.setFlagThenReg_i (s : State) (c : Bool) (x : Reg) (b : Byte) : (s.setFlagThenReg c x b).i = s.i := rfl
@[simp] theorem State.setFlagThenReg_pc (s : State) (c : Bool) (x : Reg) (b : Byte) : (s.setFlagThenReg c x b).pc = s.pc := rfl
@[simp] theorem State.setFlagThenReg_sp (s : State) (c : Bool) (x : Reg) (b : Byte) : (s.setFlagThenReg c x b).sp = s.sp := rfl
@[simp] theorem State.setFlagThenReg_stack (s : State) (c : Bool) (x : Reg) (b : Byte) : (s.setFlagThenReg c x b).stack = s.stack := rfl
@[simp] theorem State.setFlagThenReg_dt (s : State) (c : Bool) (x : Reg) (b : Byte) : (s.setFlagThenReg c x b).dt = s.dt := rfl
@[simp] theorem State.setFlagThenReg_st (s : State) (c : Bool) (x : Reg) (b : Byte) : (s.setFlagThenReg c x b).st = s.st := rfl
@[simp] theorem State.setFlagThenReg_mem (s : State) (c : Bool) (x : Reg) (b : Byte) : (s.setFlagThenReg c x b).mem = s.mem := rfl
@[simp] theorem State.setFlagThenReg_display (s : State) (c : Bool) (x : Reg) (b : Byte) : (s.setFlagThenReg c x b).display = s.display := rfl
@[simp] theorem State.setFlagThenReg_keys (s : State) (c : Bool) (x : Reg) (b : Byte) : (s.setFlagThenReg c x b).keys = s.keys := rfl
@[simp] theorem State.setFlagThenReg_latch (s : State) (c : Bool) (x : Reg) (b : Byte) : (s.setFlagThenReg c x b).latch = s.latch := rfl
@[simp] theorem State.setFlagThenReg_status (s : State) (c : Bool) (x : Reg) (b : Byte) : (s.setFlagThenReg c x b).status = s.status := rfl
@[simp] theorem State.setFlagThenReg_params (s : State) (c : Bool) (x : Reg) (b : Byte) : (s.setFlagThenReg c x b).params = s.params := rfl
@[simp] theorem State.setFlagThenReg_fresh (s : State) (c : Bool) (x : Reg) (b : Byte) : (s.setFlagThenReg c x b).fresh = s.fresh := rfl

/-! `State.advance` -/

@[simp] theorem State.advance_v (s : State) : s.advance.v = s.v := rfl
@[simp] theorem State.advance_i (s : State) : s.advance.i = s.i := rfl
@[simp] theorem State.advance_pc (s : State) : s.advance.pc = s.pc + 2 := rfl
@[simp] theorem State.advance_sp (s : State) : s.advance.sp = s.sp := rfl
@[simp] theorem State.advance_stack (s : State) : s.advance.stack = s.stack := rfl
@[simp] theorem State.advance_dt (s : State) : s.advance.dt = s.dt := rfl
@[simp] theorem State.advance_st (s : State) : s.advance.st = s.st := rfl
@[simp] theorem State.advance_mem (s : State) : s.advance.mem = s.mem := rfl
@[simp] theorem State.advance_display (s : State) : s.advance.display = s.display := rfl
@[simp] theorem State.advance_keys (s : State) : s.advance.keys = s.keys := rfl
@[simp] theorem State.advance_latch (s : State) : s.advance.latch = s.latch := rfl
@[simp] theorem State.advance_status (s : State) : s.advance.status = s.status := rfl
@[simp] theorem State.advance_params (s : State) : s.advance.params = s.params := rfl
@[simp] theorem State.advance_fresh (s : State) : s.advance.fresh = s.fresh := rfl

/-! `State.jump` -/

@[simp] theorem State.jump_v (s : State) (a : Word) : (s.jump a).v = s.v := rfl
@[simp] theorem State.jump_i (s : State) (a : Word) : (s.jump a).i = s.i := rfl
@[simp] theorem State.jump_pc (s : State) (a : Word) : (s.jump a).pc = a := rfl
@[simp] theorem State.jump_sp (s : State) (a : Word) : (s.jump a).sp = s.sp := rfl
@[simp] theorem State.jump_stack (s : State) (a : Word) : (s.jump a).stack = s.stack := rfl
@[simp] theorem State.jump_dt (s : State) (a : Word) : (s.jump a).dt = s.dt := rfl
@[simp] theorem State.jump_st (s : State) (a : Word) : (s.jump a).st = s.st := rfl
@[simp] theorem State.jump_mem (s : State) (a : Word) : (s.jump a).mem = s.mem := rfl
@[simp] theorem State.jump_display (s : State) (a : Word) : (s.jump a).display = s.display := rfl
@[simp] theorem State.jump_keys (s : State) (a : Word) : (s.jump a).keys = s.keys := rfl
@[simp] theorem State.jump_latch (s : State) (a : Word) : (s.jump a).latch = s.latch := rfl
@[simp] theorem State.jump_status (s : State) (a : Word) : (s.jump a).status = s.status := rfl
@[simp] theorem State.jump_params (s : State) (a : Word) : (s.jump a).params = s.params := rfl
@[simp] theorem State.jump_fresh (s : State) (a : Word) : (s.jump a).fresh = s.fresh := rfl

/-! `State.tickTimers` -/

@[simp] theorem State.tickTimers_v (s : State) : s.tickTimers.v = s.v := rfl
@[simp] theorem State.tickTimers_i (s : State) : s.tickTimers.i = s.i := rfl
@[simp] theorem State.tickTimers_pc (s : State) : s.tickTimers.pc = s.pc := rfl
@[simp] theorem State.tickTimers_sp (s : State) : s.tickTimers.sp = s.sp := rfl
@[simp] theorem State.tickTimers_stack (s : State) : s.tickTimers.stack = s.stack := rfl
@[simp] theorem State.tickTimers_dt (s : State) : s.tickTimers.dt = timerTick s.dt := rfl
@[simp] theorem State.tickTimers_st (s : State) : s.tickTimers.st = timerTick s.st := rfl
@[simp] theorem State.tickTimers_mem (s : State) : s.tickTimers.mem = s.mem := rfl
@[simp] theorem State.tickTimers_display (s : State) : s.tickTimers.display = s.display := rfl
@[simp] theorem State.tickTimers_keys (s : State) : s.tickTimers.keys = s.keys := rfl
@[simp] theorem State.tickTimers_latch (s : State) : s.tickTimers.latch = s.latch := rfl
@[simp] theorem State.tickTimers_status (s : State) : s.tickTimers.status = s.status := rfl
@[simp] theorem State.tickTimers_params (s : State) : s.tickTimers.params = s.params := rfl
@[simp] theorem State.tickTimers_fresh (s : State) : s.tickTimers.fresh = s.fresh := rfl

/-! `State.raiseFatal` -/

@[simp] theorem State.raiseFatal_v (s : State) (c : FatalCause) (w : Option Word) : (s.raiseFatal c w).v = Config.faultedRegs s.fresh := rfl
@[simp] theorem State.raiseFatal_i (s : State) (c : FatalCause) (w : Option Word) : (s.raiseFatal c w).i = Config.faultedIndex s.fresh := rfl
@[simp] theorem State.raiseFatal_pc (s : State) (c : FatalCause) (w : Option Word) : (s.raiseFatal c w).pc = s.pc := rfl
@[simp] theorem State.raiseFatal_sp (s : State) (c : FatalCause) (w : Option Word) : (s.raiseFatal c w).sp = Config.faultedDepth s.fresh := rfl
@[simp] theorem State.raiseFatal_stack (s : State) (c : FatalCause) (w : Option Word) : (s.raiseFatal c w).stack = Config.faultedStack s.fresh := rfl
@[simp] theorem State.raiseFatal_dt (s : State) (c : FatalCause) (w : Option Word) : (s.raiseFatal c w).dt = s.dt := rfl
@[simp] theorem State.raiseFatal_st (s : State) (c : FatalCause) (w : Option Word) : (s.raiseFatal c w).st = s.st := rfl
@[simp] theorem State.raiseFatal_mem (s : State) (c : FatalCause) (w : Option Word) : (s.raiseFatal c w).mem = Memory.ofBytes s.params (Config.faultedMemByte s.fresh) := rfl
@[simp] theorem State.raiseFatal_display (s : State) (c : FatalCause) (w : Option Word) : (s.raiseFatal c w).display = { fb := Config.faultedPixels s.fresh, dirty := Config.faultedDirty s.fresh } := rfl
@[simp] theorem State.raiseFatal_keys (s : State) (c : FatalCause) (w : Option Word) : (s.raiseFatal c w).keys = s.keys := rfl
@[simp] theorem State.raiseFatal_latch (s : State) (c : FatalCause) (w : Option Word) : (s.raiseFatal c w).latch = s.latch := rfl
@[simp] theorem State.raiseFatal_status (s : State) (c : FatalCause) (w : Option Word) : (s.raiseFatal c w).status = .faulted { cause := c, pc := s.pc, word := w } := rfl
@[simp] theorem State.raiseFatal_params (s : State) (c : FatalCause) (w : Option Word) : (s.raiseFatal c w).params = s.params := rfl
@[simp] theorem State.raiseFatal_fresh (s : State) (c : FatalCause) (w : Option Word) : (s.raiseFatal c w).fresh = s.fresh + 1 := rfl

/-! `State.draw` -/

@[simp] theorem State.draw_snd_v (s : State) : s.draw.2.v = s.v := rfl
@[simp] theorem State.draw_snd_i (s : State) : s.draw.2.i = s.i := rfl
@[simp] theorem State.draw_snd_pc (s : State) : s.draw.2.pc = s.pc := rfl
@[simp] theorem State.draw_snd_sp (s : State) : s.draw.2.sp = s.sp := rfl
@[simp] theorem State.draw_snd_stack (s : State) : s.draw.2.stack = s.stack := rfl
@[simp] theorem State.draw_snd_dt (s : State) : s.draw.2.dt = s.dt := rfl
@[simp] theorem State.draw_snd_st (s : State) : s.draw.2.st = s.st := rfl
@[simp] theorem State.draw_snd_mem (s : State) : s.draw.2.mem = s.mem := rfl
@[simp] theorem State.draw_snd_display (s : State) : s.draw.2.display = s.display := rfl
@[simp] theorem State.draw_snd_keys (s : State) : s.draw.2.keys = s.keys := rfl
@[simp] theorem State.draw_snd_latch (s : State) : s.draw.2.latch = s.latch := rfl
@[simp] theorem State.draw_snd_status (s : State) : s.draw.2.status = s.status := rfl
@[simp] theorem State.draw_snd_params (s : State) : s.draw.2.params = s.params := rfl
@[simp] theorem State.draw_snd_fresh (s : State) : s.draw.2.fresh = s.fresh + 1 := rfl

/-! `State.clearDirty` -/

@[simp] theorem State.clearDirty_v (s : State) : s.clearDirty.v = s.v := rfl
@[simp] theorem State.clearDirty_i (s : State) : s.clearDirty.i = s.i := rfl
@[simp] theorem State.clearDirty_pc (s : State) : s.clearDirty.pc = s.pc := rfl
@[simp] theorem State.clearDirty_sp (s : State) : s.clearDirty.sp = s.sp := rfl
@[simp] theorem State.clearDirty_stack (s : State) : s.clearDirty.stack = s.stack := rfl
@[simp] theorem State.clearDirty_dt (s : State) : s.clearDirty.dt = s.dt := rfl
@[simp] theorem State.clearDirty_st (s : State) : s.clearDirty.st = s.st := rfl
@[simp] theorem State.clearDirty_mem (s : State) : s.clearDirty.mem = s.mem := rfl
@[simp] theorem State.clearDirty_display (s : State) : s.clearDirty.display = { s.display with dirty := false } := rfl
@[simp] theorem State.clearDirty_keys (s : State) : s.clearDirty.keys = s.keys := rfl
@[simp] theorem State.clearDirty_latch (s : State) : s.clearDirty.latch = s.latch := rfl
@[simp] theorem State.clearDirty_status (s : State) : s.clearDirty.status = s.status := rfl
@[simp] theorem State.clearDirty_params (s : State) : s.clearDirty.params = s.params := rfl
@[simp] theorem State.clearDirty_fresh (s : State) : s.clearDirty.fresh = s.fresh := rfl

/-! `State.setPressedKeys` -/

@[simp] theorem State.setPressedKeys_v (s : State) (p : BitVec 16) : (s.setPressedKeys p).v = s.v := rfl
@[simp] theorem State.setPressedKeys_i (s : State) (p : BitVec 16) : (s.setPressedKeys p).i = s.i := rfl
@[simp] theorem State.setPressedKeys_pc (s : State) (p : BitVec 16) : (s.setPressedKeys p).pc = s.pc := rfl
@[simp] theorem State.setPressedKeys_sp (s : State) (p : BitVec 16) : (s.setPressedKeys p).sp = s.sp := rfl
@[simp] theorem State.setPressedKeys_stack (s : State) (p : BitVec 16) : (s.setPressedKeys p).stack = s.stack := rfl
@[simp] theorem State.setPressedKeys_dt (s : State) (p : BitVec 16) : (s.setPressedKeys p).dt = s.dt := rfl
@[simp] theorem State.setPressedKeys_st (s : State) (p : BitVec 16) : (s.setPressedKeys p).st = s.st := rfl
@[simp] theorem State.setPressedKeys_mem (s : State) (p : BitVec 16) : (s.setPressedKeys p).mem = s.mem := rfl
@[simp] theorem State.setPressedKeys_display (s : State) (p : BitVec 16) : (s.setPressedKeys p).display = s.display := rfl
@[simp] theorem State.setPressedKeys_keys (s : State) (p : BitVec 16) : (s.setPressedKeys p).keys = keysOf p := rfl
@[simp] theorem State.setPressedKeys_latch (s : State) (p : BitVec 16) : (s.setPressedKeys p).latch = latchAfterKeys p s.latch := rfl
@[simp] theorem State.setPressedKeys_status (s : State) (p : BitVec 16) : (s.setPressedKeys p).status = s.status := rfl
@[simp] theorem State.setPressedKeys_params (s : State) (p : BitVec 16) : (s.setPressedKeys p).params = s.params := rfl
@[simp] theorem State.setPressedKeys_fresh (s : State) (p : BitVec 16) : (s.setPressedKeys p).fresh = s.fresh := rfl

/-! `State.skipIf` -/

@[simp] theorem State.skipIf_v (s : State) (c : Bool) : (s.skipIf c).v = s.v := by cases c <;> rfl
@[simp] theorem State.skipIf_i (s : State) (c : Bool) : (s.skipIf c).i = s.i := by cases c <;> rfl
@[simp] theorem State.skipIf_pc (s : State) (c : Bool) : (s.skipIf c).pc = if c then s.pc + 4 else s.pc + 2 := by cases c <;> rfl
@[simp] theorem State.skipIf_sp (s : State) (c : Bool) : (s.skipIf c).sp = s.sp := by cases c <;> rfl
@[simp] theorem State.skipIf_stack (s : State) (c : Bool) : (s.skipIf c).stack = s.stack := by cases c <;> rfl
@[simp] theorem State.skipIf_dt (s : State) (c : Bool) : (s.skipIf c).dt = s.dt := by cases c <;> rfl
@[simp] theorem State.skipIf_st (s : State) (c : Bool) : (s.skipIf c).st = s.st := by cases c <;> rfl
@[simp] theorem State.skipIf_mem (s : State) (c : Bool) : (s.skipIf c).mem = s.mem := by cases c <;> rfl
@[simp] theorem State.skipIf_display (s : State) (c : Bool) : (s.skipIf c).display = s.display := by cases c <;> rfl
@[simp] theorem State.skipIf_keys (s : State) (c : Bool) : (s.skipIf c).keys = s.keys := by cases c <;> rfl
@[simp] theorem State.skipIf_latch (s : State) (c : Bool) : (s.skipIf c).latch = s.latch := by cases c <;> rfl
@[simp] theorem State.skipIf_status (s : State) (c : Bool) : (s.skipIf c).status = s.status := by cases c <;> rfl
@[simp] theorem State.skipIf_params (s : State) (c : Bool) : (s.skipIf c).params = s.params := by cases c <;> rfl
@[simp] theorem State.skipIf_fresh (s : State) (c : Bool) : (s.skipIf c).fresh = s.fresh := by cases c <;> rfl

end Sys2Proof.Machine
end

