-- ==== Sys2Proof/Laws/Ops.lean ====
section
/-! SUPPORT. What each shared operation does, said once. -/

namespace Sys2Proof.Machine

/-! Registers. -/

@[simp] theorem State.reg_setReg (s : State) (x y : Reg) (b : Byte) :
    (s.setReg x b).reg y = if y = x then b else s.reg y := by
  simp only [State.reg, State.setReg_v, Vector.getElem_set, Fin.ext_iff, eq_comm]

/-- VF receives the flag unless the result goes there too (40_cycle.md R106). -/
@[simp] theorem State.reg_setFlagThenReg (s : State) (c : Bool) (x y : Reg) (b : Byte) :
    (s.setFlagThenReg c x b).reg y = if y = x then b else if y = regF then flagByte c else s.reg y := by
  simp only [State.setFlagThenReg, State.reg_setReg]

theorem State.reg_congr {s t : State} (h : t.v = s.v) (x : Reg) : t.reg x = s.reg x := by
  simp only [State.reg, h]

theorem State.byteAt_congr {s t : State} (h : t.mem = s.mem) (hp : t.params = s.params) (a : Nat) :
    t.byteAt a = s.byteAt a := by simp only [State.byteAt, h, hp]

theorem State.isDown_congr {s t : State} (h : t.keys = s.keys) (k : Key) : t.isDown k = s.isDown k := by
  simp only [State.isDown, h]

/-- I after a write (10_state.md R27). -/
theorem indexReduced_toNat (pol : AddrPolicy) (a : Nat) :
    (indexReduced pol a).toNat = match pol with | .wrap => a % 4096 | .fault => a % 65536 := by
  cases pol with
  | wrap => simp [indexReduced, Config.memSize]; omega
  | fault => simp [indexReduced]

theorem keyOf_eq_some (b : Byte) (k : Key) : keyOf b = some k ↔ b.toNat = k.val := by
  unfold keyOf
  split
  · simp [Fin.ext_iff]
  · have := k.isLt; simp; omega

theorem keyOf_eq_none (b : Byte) : keyOf b = none ↔ 0x0F < b.toNat := by
  unfold keyOf; split <;> simp <;> omega

/-- The lowest key down: it is down, and none below it is (45_keypad.md R214). -/
theorem State.lowestDown_eq_some {s : State} {k : Key} (h : s.lowestDown = some k) :
    s.isDown k = true ∧ ∀ j, j < k → s.isDown j = false := by
  obtain ⟨hk, as, bs, e, ha⟩ := List.find?_eq_some_iff_append.1 h
  refine ⟨hk, fun j hj => ?_⟩
  have hs : (List.finRange 16).Pairwise (· < ·) := List.sortedLT_finRange 16 |>.pairwise
  rw [e] at hs
  have hm : j ∈ as ++ k :: bs := e ▸ List.mem_finRange j
  rcases List.mem_append.1 hm with h1 | h1
  · simpa using ha j h1
  · rcases List.mem_cons.1 h1 with rfl | h1
    · exact absurd hj (lt_irrefl _)
    · have := (List.pairwise_cons.1 (List.pairwise_append.1 hs).2.1).1 j h1
      exact absurd hj (not_lt.2 this.le)

theorem State.lowestDown_eq_none {s : State} : s.lowestDown = none ↔ ∀ k, s.isDown k = false := by
  simp [State.lowestDown]

/-! Addresses (20_memory.md R51). -/

theorem ea_ok {pol : AddrPolicy} {a : Nat} (h : pol = .wrap ∨ a ≤ 0xFFF) : ea pol a = .ok (a % 4096) := by
  cases pol with
  | wrap => rfl
  | fault =>
    have h : a ≤ 0xFFF := by simpa using h
    simp only [ea, if_neg (Nat.not_lt.2 h)]
    rw [Nat.mod_eq_of_lt (by omega)]

theorem ea_eq_ok {pol : AddrPolicy} {a e : Nat} (h : ea pol a = .ok e) :
    e = a % 4096 ∧ (pol = .wrap ∨ a ≤ 0xFFF) := by
  cases pol with
  | wrap => simp only [ea, Except.ok.injEq, Config.memSize] at h; exact ⟨h.symm, .inl rfl⟩
  | fault =>
    simp only [ea] at h
    split at h
    · cases h
    · simp only [Except.ok.injEq] at h
      exact ⟨by omega, .inr (by omega)⟩

theorem ea_eq_error {pol : AddrPolicy} {a : Nat} {c : FatalCause} (h : ea pol a = .error c) :
    pol = .fault ∧ 0xFFF < a ∧ c = .addressOutOfRange a := by
  cases pol with
  | wrap => cases h
  | fault =>
    simp only [ea] at h
    split at h
    · next hgt => cases h; exact ⟨rfl, hgt, rfl⟩
    · cases h

theorem ea_fault {a : Nat} (h : 0xFFF < a) : ea .fault a = .error (.addressOutOfRange a) := if_pos h

/-! Memory accesses. -/

theorem State.memRead_ok {s : State} {a : Nat} (h : s.params.addrPolicy = .wrap ∨ a ≤ 0xFFF) :
    s.memRead a = .ok (s.byteAt (a % 4096)) := by simp only [State.memRead, ea_ok h]

theorem State.memRead_eq_ok {s : State} {a : Nat} {b : Byte} (h : s.memRead a = .ok b) :
    ∃ e, ea s.params.addrPolicy a = .ok e ∧ b = s.byteAt e := by
  simp only [State.memRead] at h
  split at h
  · next e he => cases h; exact ⟨e, he, rfl⟩
  · cases h

theorem State.memRead_eq_error {s : State} {a : Nat} {c : FatalCause} (h : s.memRead a = .error c) :
    s.params.addrPolicy = .fault ∧ 0xFFF < a ∧ c = .addressOutOfRange a := by
  simp only [State.memRead] at h
  split at h
  · cases h
  · next c' he => cases h; exact ea_eq_error he

theorem State.memRead_congr {s t : State} (hm : t.mem = s.mem) (hp : t.params = s.params) (a : Nat) :
    t.memRead a = s.memRead a := by simp only [State.memRead, State.byteAt, hm, hp]

/-- The fetch depends on PC, memory and the parameters alone. -/
theorem State.fetch_congr {s t : State} (hm : t.mem = s.mem) (hp : t.params = s.params) (hpc : t.pc = s.pc) :
    t.fetch = s.fetch := by simp only [State.fetch, State.memRead_congr hm hp, hpc]

@[simp] theorem State.fetch_tickTimers (s : State) : s.tickTimers.fetch = s.fetch := State.fetch_congr rfl rfl rfl

theorem State.fetch_eq_ok {s : State} {w : Word} (h : s.fetch = .ok w) :
    ∃ hi lo, s.memRead s.pc.toNat = .ok hi ∧ s.memRead (s.pc.toNat + 1) = .ok lo ∧ w = wordOf hi lo := by
  simp only [State.fetch] at h
  split at h
  · cases h
  · next hi hhi =>
    split at h
    · cases h
    · next lo hlo => cases h; exact ⟨hi, lo, hhi, hlo, rfl⟩

theorem State.fetch_eq_error {s : State} {c : FatalCause} (h : s.fetch = .error c) :
    s.params.addrPolicy = .fault ∧ 0xFFF < s.pc.toNat + 1 ∧
      c = .addressOutOfRange (if 0xFFF < s.pc.toNat then s.pc.toNat else s.pc.toNat + 1) := by
  simp only [State.fetch] at h
  split at h
  · next c' hc =>
    cases h
    obtain ⟨h1, h2, h3⟩ := State.memRead_eq_error hc
    exact ⟨h1, by omega, by rw [if_pos h2, h3]⟩
  · next hi hhi =>
    split at h
    · next c' hc =>
      cases h
      obtain ⟨h1, h2, h3⟩ := State.memRead_eq_error hc
      obtain ⟨e, he, -⟩ := State.memRead_eq_ok hhi
      rw [h1] at he
      have := (ea_eq_ok he).2
      exact ⟨h1, h2, by rw [if_neg (by simpa using this), h3]⟩
    · cases h

/-- A block read gives the bytes at `a + 0`, …, `a + n − 1`. -/
theorem State.readBlock_eq_ok {s : State} : ∀ {n a : Nat} {bs : List Byte}, s.readBlock a n = .ok bs →
    bs.length = n ∧ ∀ k (h : k < bs.length), s.memRead (a + k) = .ok bs[k] := by
  intro n
  induction n with
  | zero => intro a bs h; cases h; exact ⟨rfl, fun k hk => absurd hk (Nat.not_lt_zero k)⟩
  | succ n ih =>
    intro a bs h
    simp only [State.readBlock] at h
    split at h
    · cases h
    · next b hb =>
      split at h
      · cases h
      · next cs hcs =>
        cases h
        obtain ⟨hl, hk⟩ := ih hcs
        refine ⟨by rw [List.length_cons, hl], fun k hlt => ?_⟩
        cases k with
        | zero => simpa using hb
        | succ k => simpa [Nat.add_assoc, Nat.add_comm 1] using hk k (by simpa using hlt)

/-- A block read that fails names the first address out of range. -/
theorem State.readBlock_eq_error {s : State} : ∀ {n a : Nat} {c : FatalCause}, s.readBlock a n = .error c →
    s.params.addrPolicy = .fault ∧ 0xFFF < a + (n - 1) ∧ 0 < n ∧ c = .addressOutOfRange (max a 0x1000) := by
  intro n
  induction n with
  | zero => intro a c h; cases h
  | succ n ih =>
    intro a c h
    simp only [State.readBlock] at h
    split at h
    · next c' hc =>
      cases h
      obtain ⟨h1, h2, h3⟩ := State.memRead_eq_error hc
      exact ⟨h1, by omega, by omega, by rw [h3, Nat.max_eq_left (by omega)]⟩
    · next b hb =>
      split at h
      · next c' hc =>
        cases h
        obtain ⟨h1, h2, h3, h4⟩ := ih hc
        obtain ⟨e, he, -⟩ := State.memRead_eq_ok hb
        rw [h1] at he
        have := (ea_eq_ok he).2
        simp only [reduceCtorEq, false_or] at this
        exact ⟨h1, by omega, by omega, by rw [h4]; congr 1; omega⟩
      · cases h

theorem State.readBlock_ok {s : State} : ∀ {n a : Nat},
    (s.params.addrPolicy = .wrap ∨ a + (n - 1) ≤ 0xFFF ∨ n = 0) → ∃ bs, s.readBlock a n = .ok bs := by
  intro n a h
  cases hr : s.readBlock a n with
  | ok bs => exact ⟨bs, rfl⟩
  | error c =>
    obtain ⟨h1, h2, h3, -⟩ := State.readBlock_eq_error hr
    rcases h with h | h | h
    · rw [h] at h1; cases h1
    · omega
    · omega

theorem State.readBlock_congr {s t : State} (hm : t.mem = s.mem) (hp : t.params = s.params) :
    ∀ (n a : Nat), t.readBlock a n = s.readBlock a n := by
  intro n
  induction n with
  | zero => intro a; rfl
  | succ n ih => intro a; simp only [State.readBlock, State.memRead_congr hm hp, ih]

theorem State.memWrite_eq_ok {s t : State} {a : Nat} {b : Byte} (h : s.memWrite a b = .ok t) :
    ∃ e, ea s.params.addrPolicy a = .ok e ∧ t = { s with mem := s.mem.write s.params e b } := by
  simp only [State.memWrite] at h
  split at h
  · next e he => cases h; exact ⟨e, he, rfl⟩
  · cases h

theorem State.memWrite_eq_error {s : State} {a : Nat} {b : Byte} {c : FatalCause} (h : s.memWrite a b = .error c) :
    s.params.addrPolicy = .fault ∧ 0xFFF < a ∧ c = .addressOutOfRange a := by
  simp only [State.memWrite] at h
  split at h
  · cases h
  · next c' he => cases h; exact ea_eq_error he

/-- A block write changes memory alone. -/
theorem State.writeBlock_fields : ∀ {bs : List Byte} {s t : State} {a : Nat}, s.writeBlock a bs = .ok t →
    t = { s with mem := t.mem } := by
  intro bs
  induction bs with
  | nil => intro s t a h; cases h; rfl
  | cons b bs ih =>
    intro s t a h
    simp only [State.writeBlock] at h
    split at h
    · cases h
    · next u hu =>
      obtain ⟨e, -, rfl⟩ := State.memWrite_eq_ok hu
      rw [ih h]

/-- A block write keeps the canonical form of memory. -/
theorem State.writeBlock_wf : ∀ {bs : List Byte} {s t : State} {a : Nat}, s.writeBlock a bs = .ok t →
    Memory.wf s.params s.mem → Memory.wf s.params t.mem := by
  intro bs
  induction bs with
  | nil => intro s t a h hw; cases h; exact hw
  | cons b bs ih =>
    intro s t a h hw
    simp only [State.writeBlock] at h
    split at h
    · cases h
    · next u hu =>
      obtain ⟨e, he, rfl⟩ := State.memWrite_eq_ok hu
      have hlt : e < Config.memSize := by
        have := (ea_eq_ok he).1; simp only [Config.memSize]; omega
      have := ih h (Memory.wf_write _ _ _ _ hlt hw)
      exact this

/-- The bytes after a block write of at most 4096 bytes: byte k of the list at the address of `a + k`, every other byte
as before. -/
theorem State.writeBlock_byteAt : ∀ {bs : List Byte} {s t : State} {a : Nat}, bs.length ≤ 4096 →
    s.writeBlock a bs = .ok t →
      (∀ k (h : k < bs.length) e, ea s.params.addrPolicy (a + k) = .ok e → t.byteAt e = bs[k]) ∧
      (∀ b, (∀ k < bs.length, ea s.params.addrPolicy (a + k) ≠ .ok b) → t.byteAt b = s.byteAt b) := by
  intro bs
  induction bs with
  | nil => intro s t a _ h; cases h; exact ⟨fun k hk => absurd hk (Nat.not_lt_zero k), fun _ _ => rfl⟩
  | cons v bs ih =>
    intro s t a hl h
    simp only [List.length_cons] at hl
    simp only [State.writeBlock] at h
    split at h
    · cases h
    · next u hu =>
      obtain ⟨e, he, rfl⟩ := State.memWrite_eq_ok hu
      obtain ⟨h1, h2⟩ := ih (by omega) h
      have hb : ∀ b, State.byteAt { s with mem := s.mem.write s.params e v } b = if b = e then v else s.byteAt b :=
        fun b => Memory.read_write s.params s.mem e b v
      refine ⟨fun k hk e' he' => ?_, fun b hne => ?_⟩
      · cases k with
        | zero =>
          have hee : e' = e := by rw [Nat.add_zero, he] at he'; cases he'; rfl
          subst hee
          rw [h2 e' fun k hk hke => ?_, hb, if_pos rfl]; · rfl
          have p1 := (ea_eq_ok he).1
          have p2 := (ea_eq_ok hke).1
          omega
        | succ k =>
          refine h1 k (by simpa using hk) e' ?_
          rw [Nat.add_assoc, Nat.add_comm 1]; exact he'
      · rw [h2 b fun k hk => ?_, hb, if_neg fun hbe => ?_]
        · exact hne 0 (by simp) (by rw [Nat.add_zero, he, hbe])
        · have := hne (k + 1) (by simpa using hk)
          rwa [Nat.add_assoc, Nat.add_comm 1]

/-- A block write that fails names the first address out of range. -/
theorem State.writeBlock_eq_error : ∀ {bs : List Byte} {s : State} {a : Nat} {c : FatalCause},
    s.writeBlock a bs = .error c →
      s.params.addrPolicy = .fault ∧ 0xFFF < a + (bs.length - 1) ∧ 0 < bs.length ∧
        c = .addressOutOfRange (max a 0x1000) := by
  intro bs
  induction bs with
  | nil => intro s a c h; cases h
  | cons b bs ih =>
    intro s a c h
    simp only [State.writeBlock] at h
    split at h
    · next c' hc =>
      cases h
      obtain ⟨h1, h2, h3⟩ := State.memWrite_eq_error hc
      exact ⟨h1, by omega, by simp, by rw [h3, Nat.max_eq_left (by omega)]⟩
    · next u hu =>
      obtain ⟨e, he, rfl⟩ := State.memWrite_eq_ok hu
      obtain ⟨h1, h2, h3, h4⟩ := ih h
      simp only at h1
      rw [h1] at he
      have := (ea_eq_ok he).2
      simp only [reduceCtorEq, false_or] at this
      simp only [List.length_cons]
      exact ⟨h1, by omega, by omega, by rw [h4]; congr 1; omega⟩

theorem State.writeBlock_ok {s : State} {a : Nat} {bs : List Byte}
    (h : s.params.addrPolicy = .wrap ∨ a + (bs.length - 1) ≤ 0xFFF) : ∃ t, s.writeBlock a bs = .ok t := by
  cases hr : s.writeBlock a bs with
  | ok t => exact ⟨t, rfl⟩
  | error c =>
    obtain ⟨h1, h2, -, -⟩ := State.writeBlock_eq_error hr
    rcases h with h | h
    · rw [h] at h1; cases h1
    · omega

/-! Register blocks. -/

theorem setRegsFrom_getElem : ∀ (bs : List Byte) (k : Nat) (v : Vector Byte 16) (j : Nat) (hj : j < 16),
    (setRegsFrom k bs v)[j] = if h : k ≤ j ∧ j < k + bs.length then bs[j - k]'(by omega) else v[j] := by
  intro bs
  induction bs with
  | nil => intro k v j hj; simp [setRegsFrom]
  | cons b bs ih =>
    intro k v j hj
    rw [setRegsFrom, ih, Vector.getElem_setIfInBounds]
    by_cases h1 : k = j
    · subst h1; simp
    · by_cases h2 : k + 1 ≤ j ∧ j < k + 1 + bs.length
      · rw [dif_pos h2, dif_pos (by simp only [List.length_cons]; omega)]
        have : j - k = (j - (k + 1)) + 1 := by omega
        simp [this]
      · rw [dif_neg h2, if_neg h1, dif_neg (by simp only [List.length_cons]; omega)]

theorem State.regsUpTo_length (s : State) (x : Reg) : (s.regsUpTo x).length = x.val + 1 := by
  simp [State.regsUpTo]

theorem State.regsUpTo_getElem (s : State) (x : Reg) (k : Nat) (h : k < (s.regsUpTo x).length) :
    (s.regsUpTo x)[k] = s.reg ⟨k, by rw [State.regsUpTo_length] at h; omega⟩ := by
  simp [State.regsUpTo, State.reg]

/-! The stack (10_state.md R28). -/

theorem State.push_eq_none {s : State} {a : Word} : s.push a = none ↔ s.sp.val = 16 := by
  unfold State.push; split <;> simp <;> omega

theorem State.push_eq_some {s t : State} {a : Word} (h : s.push a = some t) :
    ∃ hs : s.sp.val < 16, t = { s with stack := s.stack.set s.sp.val a, sp := ⟨s.sp.val + 1, by omega⟩ } := by
  unfold State.push at h
  split at h
  · next hs => exact ⟨hs, (Option.some.inj h).symm⟩
  · cases h

theorem State.pop_eq_none {s : State} : s.pop = none ↔ s.sp.val = 0 := by
  unfold State.pop; split <;> simp <;> omega

theorem State.pop_eq_some {s t : State} {a : Word} (h : s.pop = some (a, t)) :
    ∃ hs : 0 < s.sp.val, a = s.stack[s.sp.val - 1] ∧ t = { s with sp := ⟨s.sp.val - 1, by omega⟩ } := by
  unfold State.pop at h
  split at h
  · next hs => cases h; exact ⟨hs, rfl, rfl⟩
  · cases h

/-! The timers (46_timers.md R230). -/

theorem timerTick_toNat (t : Byte) : (timerTick t).toNat = t.toNat - 1 := by
  unfold timerTick
  split
  · next h => rw [BitVec.toNat_sub_of_le (by rw [BitVec.le_def]; exact h)]; rfl
  · omega

end Sys2Proof.Machine
end

