-- ==== Sys2Proof/Laws/PerInstr.lean ====
section
/-! SUPPORT. Statements for all instructions, one lemma per constructor of `Instr`. -/

namespace Sys2Proof.Laws

/-- Decoding the word of a well-formed instruction gives the instruction back (30_encoding.md R74, R75). -/
def RoundTrip.Statement (i : Instr) : Prop := i.wf = true → decode (encode i) = .ok i

theorem RoundTrip.sys (nnn : Addr12) : RoundTrip.Statement (.sys nnn) := by
  intro h
  have hne : ∀ c : Addr12, nnn ≠ c → formatNNN 0#4 nnn ≠ formatNNN 0#4 c := fun c hc he =>
    hc (by rw [← fieldNNN_formatNNN 0#4 nnn, he, fieldNNN_formatNNN])
  simp only [Instr.wf, bne_iff_ne, Bool.and_eq_true] at h
  have h0 : formatNNN 0#4 nnn ≠ 0x00E0#16 := hne _ h.1
  have h1 : formatNNN 0#4 nnn ≠ 0x00EE#16 := hne _ h.2
  simp [decode, encode, decodeFamily0, h0, h1]
theorem RoundTrip.cls : RoundTrip.Statement .cls := fun _ => by decide
theorem RoundTrip.ret : RoundTrip.Statement .ret := fun _ => by decide
theorem RoundTrip.jp (nnn : Addr12) : RoundTrip.Statement (.jp nnn) := fun _ => by simp [decode, encode]
theorem RoundTrip.call (nnn : Addr12) : RoundTrip.Statement (.call nnn) := fun _ => by simp [decode, encode]
theorem RoundTrip.ldI (nnn : Addr12) : RoundTrip.Statement (.ldI nnn) := fun _ => by simp [decode, encode]
theorem RoundTrip.jpV0 (nnn : Addr12) : RoundTrip.Statement (.jpV0 nnn) := fun _ => by simp [decode, encode]
theorem RoundTrip.seImm (x : Reg) (nn : Byte) : RoundTrip.Statement (.seImm x nn) := fun _ => by simp [decode, encode]
theorem RoundTrip.sneImm (x : Reg) (nn : Byte) : RoundTrip.Statement (.sneImm x nn) := fun _ => by simp [decode, encode]
theorem RoundTrip.ldImm (x : Reg) (nn : Byte) : RoundTrip.Statement (.ldImm x nn) := fun _ => by simp [decode, encode]
theorem RoundTrip.addImm (x : Reg) (nn : Byte) : RoundTrip.Statement (.addImm x nn) := fun _ => by simp [decode, encode]
theorem RoundTrip.rnd (x : Reg) (nn : Byte) : RoundTrip.Statement (.rnd x nn) := fun _ => by simp [decode, encode]
theorem RoundTrip.seReg (x y : Reg) : RoundTrip.Statement (.seReg x y) := fun _ => by simp [decode, encode]
theorem RoundTrip.sneReg (x y : Reg) : RoundTrip.Statement (.sneReg x y) := fun _ => by simp [decode, encode]
theorem RoundTrip.ldReg (x y : Reg) : RoundTrip.Statement (.ldReg x y) := fun _ => by simp [decode, encode, decodeFamily8]
theorem RoundTrip.orReg (x y : Reg) : RoundTrip.Statement (.orReg x y) := fun _ => by simp [decode, encode, decodeFamily8]
theorem RoundTrip.andReg (x y : Reg) : RoundTrip.Statement (.andReg x y) := fun _ => by simp [decode, encode, decodeFamily8]
theorem RoundTrip.xorReg (x y : Reg) : RoundTrip.Statement (.xorReg x y) := fun _ => by simp [decode, encode, decodeFamily8]
theorem RoundTrip.addReg (x y : Reg) : RoundTrip.Statement (.addReg x y) := fun _ => by simp [decode, encode, decodeFamily8]
theorem RoundTrip.subReg (x y : Reg) : RoundTrip.Statement (.subReg x y) := fun _ => by simp [decode, encode, decodeFamily8]
theorem RoundTrip.shr (x y : Reg) : RoundTrip.Statement (.shr x y) := fun _ => by simp [decode, encode, decodeFamily8]
theorem RoundTrip.subnReg (x y : Reg) : RoundTrip.Statement (.subnReg x y) := fun _ => by simp [decode, encode, decodeFamily8]
theorem RoundTrip.shl (x y : Reg) : RoundTrip.Statement (.shl x y) := fun _ => by simp [decode, encode, decodeFamily8]
theorem RoundTrip.drw (x y : Reg) (n : Height) : RoundTrip.Statement (.drw x y n) := fun _ => by simp [decode, encode]
theorem RoundTrip.skp (x : Reg) : RoundTrip.Statement (.skp x) := fun _ => by simp [decode, encode, decodeFamilyE]
theorem RoundTrip.sknp (x : Reg) : RoundTrip.Statement (.sknp x) := fun _ => by simp [decode, encode, decodeFamilyE]
theorem RoundTrip.ldFromDt (x : Reg) : RoundTrip.Statement (.ldFromDt x) := fun _ => by simp [decode, encode, decodeFamilyF]
theorem RoundTrip.ldKey (x : Reg) : RoundTrip.Statement (.ldKey x) := fun _ => by simp [decode, encode, decodeFamilyF]
theorem RoundTrip.ldToDt (x : Reg) : RoundTrip.Statement (.ldToDt x) := fun _ => by simp [decode, encode, decodeFamilyF]
theorem RoundTrip.ldToSt (x : Reg) : RoundTrip.Statement (.ldToSt x) := fun _ => by simp [decode, encode, decodeFamilyF]
theorem RoundTrip.addI (x : Reg) : RoundTrip.Statement (.addI x) := fun _ => by simp [decode, encode, decodeFamilyF]
theorem RoundTrip.ldFont (x : Reg) : RoundTrip.Statement (.ldFont x) := fun _ => by simp [decode, encode, decodeFamilyF]
theorem RoundTrip.ldBcd (x : Reg) : RoundTrip.Statement (.ldBcd x) := fun _ => by simp [decode, encode, decodeFamilyF]
theorem RoundTrip.storeRegs (x : Reg) : RoundTrip.Statement (.storeRegs x) := fun _ => by simp [decode, encode, decodeFamilyF]
theorem RoundTrip.loadRegs (x : Reg) : RoundTrip.Statement (.loadRegs x) := fun _ => by simp [decode, encode, decodeFamilyF]

end Sys2Proof.Laws
end

