-- ==== Sys2Proof/Laws/Video.lean ====
section
/-! SUPPORT. What drawing does to the display (44_display.md R191 to R196): a sprite toggles each of its in-bounds pixels
once, so that the loop over rows and columns is one exclusive OR with the sprite. -/

namespace Sys2Proof.Machine

/-- `toggle` flips its pixel and no other (R191). -/
theorem Display.pixel_toggle (d : Display) (px qx : Fin 64) (py qy : Fin 32) :
    (d.toggle px py).1.pixel qx qy = if qx = px ∧ qy = py then !d.pixel px py else d.pixel qx qy := by
  simp only [Display.toggle, Display.pixel, Vector.getElem_set, Fin.ext_iff]
  by_cases hy : qy.val = py.val
  · have hy' := hy.symm
    by_cases hx : qx.val = px.val
    · simp [hx, hy]
    · simp [hy', hx, Ne.symm hx]
  · simp [hy, Ne.symm hy]

theorem Display.pixel_cleared (px : Fin 64) (py : Fin 32) : Display.cleared.pixel px py = false := by
  simp [Display.pixel, Display.cleared]

/-- From `a` to `r` exactly the pixels of `S` were toggled, once each: the pixels, the collision (R196) and the dirty
flag (R191). -/
structure Toggled (S : Fin 64 → Fin 32 → Bool) (a r : Display × Bool) : Prop where
  pixel : ∀ qx qy, r.1.pixel qx qy = (a.1.pixel qx qy ^^ S qx qy)
  hit   : r.2 = true ↔ a.2 = true ∨ ∃ qx qy, S qx qy = true ∧ a.1.pixel qx qy = true
  dirty : r.1.dirty = true ↔ a.1.dirty = true ∨ ∃ qx qy, S qx qy = true

theorem Toggled.none (S : Fin 64 → Fin 32 → Bool) (h : ∀ qx qy, S qx qy = false) (a : Display × Bool) :
    Toggled S a a :=
  ⟨fun qx qy => by simp [h], by simp [h], by simp [h]⟩

/-- Togglings of disjoint sets one after the other. -/
theorem Toggled.trans {S T U : Fin 64 → Fin 32 → Bool} {a b c : Display × Bool} (h1 : Toggled S a b)
    (h2 : Toggled T b c) (hd : ∀ qx qy, ¬ (S qx qy = true ∧ T qx qy = true))
    (hu : ∀ qx qy, U qx qy = (S qx qy || T qx qy)) : Toggled U a c := by
  refine ⟨fun qx qy => ?_, ?_, ?_⟩
  · have := hd qx qy
    rw [h2.pixel, h1.pixel, hu]
    cases hs : S qx qy <;> cases ht : T qx qy <;> simp_all
  · rw [h2.hit, h1.hit]
    constructor
    · rintro ((h | ⟨qx, qy, h, ha⟩) | ⟨qx, qy, h, hb⟩)
      · exact .inl h
      · exact .inr ⟨qx, qy, by simp [hu, h], ha⟩
      · refine .inr ⟨qx, qy, by simp [hu, h], ?_⟩
        have hs : S qx qy = false := by simpa [h] using hd qx qy
        simpa [h1.pixel, hs] using hb
    · rintro (h | ⟨qx, qy, h, ha⟩)
      · exact .inl (.inl h)
      · rw [hu, Bool.or_eq_true] at h
        by_cases hs : S qx qy = true
        · exact .inl (.inr ⟨qx, qy, hs, ha⟩)
        · have ht := h.resolve_left hs
          exact .inr ⟨qx, qy, ht, by simp only [Bool.not_eq_true] at hs; simp [h1.pixel, hs, ha]⟩
  · rw [h2.dirty, h1.dirty]
    constructor
    · rintro ((h | ⟨qx, qy, h⟩) | ⟨qx, qy, h⟩)
      · exact .inl h
      · exact .inr ⟨qx, qy, by simp [hu, h]⟩
      · exact .inr ⟨qx, qy, by simp [hu, h]⟩
    · rintro (h | ⟨qx, qy, h⟩)
      · exact .inl (.inl h)
      · rw [hu, Bool.or_eq_true] at h
        exact h.elim (fun h => .inl (.inr ⟨qx, qy, h⟩)) fun h => .inr ⟨qx, qy, h⟩

/-- One sprite pixel: toggled when its bit is 1 and it is in bounds (R194, R195). -/
theorem drawPixel_toggled (bit : Bool) (px py : Nat) (a : Display × Bool) :
    Toggled (fun qx qy => bit && decide (qx.val = px) && decide (qy.val = py)) a (drawPixel bit px py a) := by
  unfold drawPixel
  split
  · next hb =>
    split
    · next h =>
      have hq : ∀ (qx : Fin 64) (qy : Fin 32), (bit && decide (qx.val = px) && decide (qy.val = py)) = true ↔
          qx = ⟨px, h.1⟩ ∧ qy = ⟨py, h.2⟩ := fun qx qy => by simp [hb, Fin.ext_iff]
      refine ⟨fun qx qy => ?_, ?_, ?_⟩
      · rw [Display.pixel_toggle]
        by_cases hx : qx = ⟨px, h.1⟩ ∧ qy = ⟨py, h.2⟩
        · rw [if_pos hx, (hq qx qy).2 hx, hx.1, hx.2]; simp
        · rw [if_neg hx, Bool.eq_false_iff.2 fun e => hx ((hq qx qy).1 e)]; simp
      · simp only [hq, Bool.or_eq_true, Display.toggle]
        constructor
        · rintro (h1 | h1)
          · exact .inl h1
          · exact .inr ⟨_, _, ⟨rfl, rfl⟩, h1⟩
        · rintro (h1 | ⟨qx, qy, ⟨rfl, rfl⟩, h1⟩)
          · exact .inl h1
          · exact .inr h1
      · simp only [hq, Display.toggle]
        exact ⟨fun _ => .inr ⟨_, _, rfl, rfl⟩, fun _ => trivial⟩
    · next h =>
      refine Toggled.none _ (fun qx qy => ?_) a
      have h1 := qx.isLt
      have h2 := qy.isLt
      rw [Bool.eq_false_iff]
      intro e
      simp only [Bool.and_eq_true, decide_eq_true_eq] at e
      exact h ⟨by omega, by omega⟩
  · next hb => exact Toggled.none _ (fun qx qy => by simp [hb]) a

/-- The first `n` columns of a row. -/
def columnsBit (ox py : Nat) (b : Byte) (n : Nat) (qx : Fin 64) (qy : Fin 32) : Bool :=
  decide (ox ≤ qx.val) && decide (qx.val < ox + n) && decide (qy.val = py) && b.getLsbD (7 - (qx.val - ox))

theorem drawColumns_toggled (ox py : Nat) (b : Byte) (n : Nat) (a : Display × Bool) :
    Toggled (columnsBit ox py b n) a
      ((List.range n).foldl (fun acc c => drawPixel (b.getLsbD (7 - c)) (ox + c) py acc) a) := by
  induction n with
  | zero =>
    refine Toggled.none _ (fun qx qy => ?_) a
    rw [Bool.eq_false_iff]; intro e
    simp only [columnsBit, Bool.and_eq_true, decide_eq_true_eq] at e; omega
  | succ n ih =>
    rw [List.range_succ, List.foldl_append]
    refine ih.trans (drawPixel_toggled (b.getLsbD (7 - n)) (ox + n) py _) (fun qx qy h => ?_) fun qx qy => ?_
    · simp only [columnsBit, Bool.and_eq_true, decide_eq_true_eq] at h; omega
    · rw [Bool.eq_iff_iff]
      simp only [columnsBit, Bool.or_eq_true, Bool.and_eq_true, decide_eq_true_eq]
      constructor
      · rintro ⟨⟨⟨h1, h2⟩, h3⟩, h4⟩
        by_cases hx : qx.val = ox + n
        · exact .inr ⟨⟨by rwa [hx, Nat.add_sub_cancel_left] at h4, hx⟩, h3⟩
        · exact .inl ⟨⟨⟨h1, by omega⟩, h3⟩, h4⟩
      · rintro (⟨⟨⟨h1, h2⟩, h3⟩, h4⟩ | ⟨⟨h1, h2⟩, h3⟩)
        · exact ⟨⟨⟨h1, by omega⟩, h3⟩, h4⟩
        · exact ⟨⟨⟨by omega, by omega⟩, h3⟩, by rwa [h2, Nat.add_sub_cancel_left]⟩

/-- The bit that the rows of a sprite, drawn with its origin at (ox, oy), have at a pixel. -/
def rowsBit (ox oy : Nat) (rows : List Byte) (qx : Fin 64) (qy : Fin 32) : Bool :=
  decide (ox ≤ qx.val) && decide (qx.val < ox + 8) && decide (oy ≤ qy.val) &&
    match rows[qy.val - oy]? with
    | some b => b.getLsbD (7 - (qx.val - ox))
    | none => false

/-- A sprite toggles the in-bounds pixels at which its rows have a bit, each once. -/
theorem drawRows_toggled (ox : Nat) (rows : List Byte) : ∀ (oy : Nat) (a : Display × Bool),
    Toggled (rowsBit ox oy rows) a (drawRows ox oy rows a) := by
  induction rows with
  | nil => intro oy a; exact Toggled.none _ (fun qx qy => by simp [rowsBit]) a
  | cons b bs ih =>
    intro oy a
    refine (drawColumns_toggled ox oy b 8 a).trans (ih (oy + 1) _) (fun qx qy h => ?_) fun qx qy => ?_
    · simp only [columnsBit, rowsBit, Bool.and_eq_true, decide_eq_true_eq] at h; omega
    · rw [Bool.eq_iff_iff]
      simp only [columnsBit, rowsBit, Bool.or_eq_true, Bool.and_eq_true, decide_eq_true_eq]
      by_cases hy : qy.val = oy
      · simp [hy]
      · by_cases hlt : oy + 1 ≤ qy.val
        · have : qy.val - oy = (qy.val - (oy + 1)) + 1 := by omega
          simp [hy, hlt, this, show oy ≤ qy.val by omega]
        · simp [hy, hlt, show ¬ oy ≤ qy.val by omega]

end Sys2Proof.Machine
end

