-- ==== Sys2Proof/Laws/Step.lean ====
section
/-! SUPPORT. What an instruction and a step can do, said once: an instruction completes and keeps what it does not write,
or it raises a fatal error that is its own. Every rule about the whole machine is read off these two lemmas. -/

namespace Sys2Proof.Machine

/-- What an instruction that raises no fatal error keeps. -/
structure Completed (i : Instr) (s t : State) : Prop where
  status  : t.status = s.status
  params  : t.params = s.params
  keys    : t.keys = s.keys
  latch   : (∀ x, i ≠ .ldKey x) → t.latch = s.latch
  stack   : i ≠ .ret → (∀ a, i ≠ .call a) → t.sp = s.sp ∧ t.stack = s.stack
  display : i ≠ .cls → (∀ x y n, i ≠ .drw x y n) → t.display = s.display
  mem     : (∀ x, i ≠ .ldBcd x) → (∀ x, i ≠ .storeRegs x) → t.mem = s.mem
  wf      : Memory.wf s.params s.mem → Memory.wf s.params t.mem
  index   : (∀ a, i ≠ .ldI a) → (∀ x, i ≠ .addI x) → (∀ x, i ≠ .ldFont x) → t.i = s.i
  indexLe : s.params.addrPolicy = .wrap → s.i.toNat ≤ 0xFFF → t.i.toNat ≤ 0xFFF
  dt      : (∀ x, i ≠ .ldToDt x) → t.dt = s.dt
  st      : (∀ x, i ≠ .ldToSt x) → t.st = s.st

theorem bcdDigits_length (b : Byte) : (bcdDigits b).length = 3 := rfl

section
variable {i : Instr} {s t : State}

/-- An instruction that writes registers, PC and the counter of free values alone. -/
theorem Completed.of_core (h : t = { s with v := t.v, pc := t.pc, fresh := t.fresh }) : Completed i s t := by
  rw [h]
  exact ⟨rfl, rfl, rfl, fun _ => rfl, fun _ _ => ⟨rfl, rfl⟩, fun _ _ => rfl, fun _ _ => rfl, id, fun _ _ _ => rfl,
    fun _ h => h, fun _ => rfl, fun _ => rfl⟩

theorem Completed.of_skip (c : Bool) : Completed i s (s.skipIf c) := by
  cases c <;> exact Completed.of_core rfl

end

theorem exec_call_cases (a : Addr12) (s : State) :
    ∃ t, execCall a s = .next t ∧
      (Completed (.call a) s t ∨ ∃ c, CanRaise (.call a) s c ∧ t = s.raiseFatal c (some (encode (.call a)))) := by
  unfold execCall
  split
  · next h => exact ⟨_, rfl, .inr ⟨.stackOverflow, ⟨⟨a, rfl⟩, State.push_eq_none.1 h⟩, rfl⟩⟩
  · next t h =>
    obtain ⟨hs, rfl⟩ := State.push_eq_some h
    exact ⟨_, rfl, .inl ⟨rfl, rfl, rfl, fun _ => rfl, fun _ h => absurd rfl (h a), fun _ _ => rfl, fun _ _ => rfl, id,
      fun _ _ _ => rfl, fun _ h => h, fun _ => rfl, fun _ => rfl⟩⟩

theorem exec_ret_cases (s : State) :
    ∃ t, execRet s = .next t ∧
      (Completed .ret s t ∨ ∃ c, CanRaise .ret s c ∧ t = s.raiseFatal c (some (encode .ret))) := by
  unfold execRet
  split
  · next h => exact ⟨_, rfl, .inr ⟨.stackUnderflow, ⟨rfl, State.pop_eq_none.1 h⟩, rfl⟩⟩
  · next a t h =>
    obtain ⟨hs, -, rfl⟩ := State.pop_eq_some h
    exact ⟨_, rfl, .inl ⟨rfl, rfl, rfl, fun _ => rfl, fun h _ => absurd rfl h, fun _ _ => rfl, fun _ _ => rfl, id,
      fun _ _ _ => rfl, fun _ h => h, fun _ => rfl, fun _ => rfl⟩⟩

theorem exec_skipOnKey_cases (want : Bool) (x : Reg) (i : Instr) (s : State) (hi : i = .skp x ∨ i = .sknp x) :
    ∃ t, s.skipOnKey want x i = .next t ∧
      (Completed i s t ∨ ∃ c, CanRaise i s c ∧ t = s.raiseFatal c (some (encode i))) := by
  unfold State.skipOnKey
  split
  · next h => exact ⟨_, rfl, .inr ⟨.keyIndexOutOfRange _, ⟨x, hi, rfl, (keyOf_eq_none _).1 h⟩, rfl⟩⟩
  · exact ⟨_, rfl, .inl (Completed.of_skip _)⟩

theorem exec_ldKey_cases (x : Reg) (s : State) : ∃ t, execLdKey x s = .next t ∧ Completed (.ldKey x) s t := by
  have h : ∀ l : Latch, ∀ v pc, Completed (.ldKey x) s { s with v := v, pc := pc, latch := l } := fun l v pc =>
    ⟨rfl, rfl, rfl, fun h => absurd rfl (h x), fun _ _ => ⟨rfl, rfl⟩, fun _ _ => rfl, fun _ _ => rfl, id,
      fun _ _ _ => rfl, fun _ h => h, fun _ => rfl, fun _ => rfl⟩
  unfold execLdKey
  split
  · exact ⟨_, rfl, h _ _ _⟩
  · exact ⟨_, rfl, Completed.of_core rfl⟩
  · split
    · exact ⟨_, rfl, h _ _ _⟩
    · exact ⟨_, rfl, Completed.of_core rfl⟩

theorem exec_index_completed {i : Instr} {s : State} {v : Word}
    (hi : (∃ a, i = .ldI a) ∨ (∃ x, i = .addI x) ∨ ∃ x, i = .ldFont x)
    (hv : s.params.addrPolicy = .wrap → v.toNat ≤ 0xFFF) : Completed i s ({ s with i := v } : State).advance := by
  refine ⟨rfl, rfl, rfl, fun _ => rfl, fun _ _ => ⟨rfl, rfl⟩, fun _ _ => rfl, fun _ _ => rfl, id, fun h1 h2 h3 => ?_,
    fun h _ => hv h, fun _ => rfl, fun _ => rfl⟩
  rcases hi with ⟨a, rfl⟩ | ⟨x, rfl⟩ | ⟨x, rfl⟩
  · exact absurd rfl (h1 a)
  · exact absurd rfl (h2 x)
  · exact absurd rfl (h3 x)

theorem indexReduced_wrap_le (a : Nat) : (indexReduced .wrap a).toNat ≤ 0xFFF := by
  rw [indexReduced_toNat]; show a % 4096 ≤ 0xFFF; omega

theorem exec_block_cases {i : Instr} {s : State} {bs : List Byte}
    (hi : (∃ x, i = .ldBcd x) ∨ ∃ x, i = .storeRegs x) :
    ∃ t, (match s.writeBlock s.i.toNat bs with | .error c => s.fatal c i | .ok t => .next t.advance : Result) = .next t ∧
      (Completed i s t ∨ ∃ c, CanRaise i s c ∧ t = s.raiseFatal c (some (encode i))) := by
  cases h : s.writeBlock s.i.toNat bs with
  | error c =>
    obtain ⟨h1, h2, -, rfl⟩ := State.writeBlock_eq_error h
    refine ⟨_, rfl, .inr ⟨.addressOutOfRange _, ⟨h1, by omega, .inr ?_⟩, rfl⟩⟩
    rcases hi with ⟨x, rfl⟩ | ⟨x, rfl⟩
    · exact ⟨x, .inl rfl⟩
    · exact ⟨x, .inr (.inl rfl)⟩
  | ok t =>
    refine ⟨_, rfl, .inl ?_⟩
    have hw := State.writeBlock_wf h
    rw [State.writeBlock_fields h]
    refine ⟨rfl, rfl, rfl, fun _ => rfl, fun _ _ => ⟨rfl, rfl⟩, fun _ _ => rfl, fun h1 h2 => ?_, hw, fun _ _ _ => rfl,
      fun _ h => h, fun _ => rfl, fun _ => rfl⟩
    rcases hi with ⟨x, rfl⟩ | ⟨x, rfl⟩
    · exact absurd rfl (h1 x)
    · exact absurd rfl (h2 x)

theorem exec_loadRegs_cases (x : Reg) (s : State) :
    ∃ t, execLoadRegs x s = .next t ∧
      (Completed (.loadRegs x) s t ∨
        ∃ c, CanRaise (.loadRegs x) s c ∧ t = s.raiseFatal c (some (encode (.loadRegs x)))) := by
  unfold execLoadRegs
  split
  · next c h =>
    obtain ⟨h1, h2, -, rfl⟩ := State.readBlock_eq_error h
    exact ⟨_, rfl, .inr ⟨.addressOutOfRange _, ⟨h1, by omega, .inr ⟨x, .inr (.inr rfl)⟩⟩, rfl⟩⟩
  · exact ⟨_, rfl, .inl (Completed.of_core rfl)⟩

theorem exec_drw_cases (x y : Reg) (n : Height) (s : State) :
    ∃ t, execDrw x y n s = .next t ∧
      (Completed (.drw x y n) s t ∨
        ∃ c, CanRaise (.drw x y n) s c ∧ t = s.raiseFatal c (some (encode (.drw x y n)))) := by
  unfold execDrw
  split
  · next c h =>
    obtain ⟨h1, h2, -, rfl⟩ := State.readBlock_eq_error h
    exact ⟨_, rfl, .inr ⟨.addressOutOfRange _, ⟨h1, by omega, .inl ⟨x, y, n, rfl⟩⟩, rfl⟩⟩
  · exact ⟨_, rfl, .inl ⟨rfl, rfl, rfl, fun _ => rfl, fun _ _ => ⟨rfl, rfl⟩, fun _ h => absurd rfl (h x y n),
      fun _ _ => rfl, id, fun _ _ _ => rfl, fun _ h => h, fun _ => rfl, fun _ => rfl⟩⟩

/-- Every instruction answers a next state: it completes, or it raises a fatal error that is its own. -/
theorem exec_cases (i : Instr) (s : State) :
    ∃ t, exec i s = .next t ∧ (Completed i s t ∨ ∃ c, CanRaise i s c ∧ t = s.raiseFatal c (some (encode i))) := by
  cases i with
  | call a => exact exec_call_cases a s
  | ret => exact exec_ret_cases s
  | skp x => exact exec_skipOnKey_cases true x _ s (.inl rfl)
  | sknp x => exact exec_skipOnKey_cases false x _ s (.inr rfl)
  | ldBcd x => exact exec_block_cases (.inl ⟨x, rfl⟩)
  | storeRegs x => exact exec_block_cases (.inr ⟨x, rfl⟩)
  | loadRegs x => exact exec_loadRegs_cases x s
  | drw x y n => exact exec_drw_cases x y n s
  | ldKey x => obtain ⟨t, h, hc⟩ := exec_ldKey_cases x s; exact ⟨t, h, .inl hc⟩
  | seImm x nn => exact ⟨_, rfl, .inl (Completed.of_skip _)⟩
  | sneImm x nn => exact ⟨_, rfl, .inl (Completed.of_skip _)⟩
  | seReg x y => exact ⟨_, rfl, .inl (Completed.of_skip _)⟩
  | sneReg x y => exact ⟨_, rfl, .inl (Completed.of_skip _)⟩
  | cls =>
    exact ⟨_, rfl, .inl ⟨rfl, rfl, rfl, fun _ => rfl, fun _ _ => ⟨rfl, rfl⟩, fun h _ => absurd rfl h, fun _ _ => rfl, id,
      fun _ _ _ => rfl, fun _ h => h, fun _ => rfl, fun _ => rfl⟩⟩
  | ldToDt x =>
    exact ⟨_, rfl, .inl ⟨rfl, rfl, rfl, fun _ => rfl, fun _ _ => ⟨rfl, rfl⟩, fun _ _ => rfl, fun _ _ => rfl, id,
      fun _ _ _ => rfl, fun _ h => h, fun h => absurd rfl (h x), fun _ => rfl⟩⟩
  | ldToSt x =>
    exact ⟨_, rfl, .inl ⟨rfl, rfl, rfl, fun _ => rfl, fun _ _ => ⟨rfl, rfl⟩, fun _ _ => rfl, fun _ _ => rfl, id,
      fun _ _ _ => rfl, fun _ h => h, fun _ => rfl, fun h => absurd rfl (h x)⟩⟩
  | ldI a =>
    refine ⟨_, rfl, .inl (exec_index_completed (.inl ⟨a, rfl⟩) fun _ => ?_)⟩
    simp only [BitVec.toNat_setWidth]; omega
  | addI x =>
    exact ⟨_, rfl, .inl (exec_index_completed (.inr (.inl ⟨x, rfl⟩)) fun h => h ▸ indexReduced_wrap_le _)⟩
  | ldFont x =>
    exact ⟨_, rfl, .inl (exec_index_completed (.inr (.inr ⟨x, rfl⟩)) fun h => h ▸ indexReduced_wrap_le _)⟩
  | sys | jp | jpV0 | ldImm | addImm | ldReg | orReg | andReg | xorReg | addReg | subReg | shr | subnReg | shl | rnd
  | ldFromDt => exact ⟨_, rfl, .inl (Completed.of_core rfl)⟩

/-- A step of a running machine: a fatal error of the fetch or of the decode, or the decoded instruction. -/
theorem step_cases {s : State} (h : s.status = .running) :
    (∃ c, s.fetch = .error c ∧ step s = .next (s.tickTimers.raiseFatal c none)) ∨
    (∃ w e, s.fetch = .ok w ∧ decode w = .error e ∧
      step s = .next (s.tickTimers.raiseFatal .unknownInstruction (some w))) ∨
    (∃ w i, s.fetch = .ok w ∧ decode w = .ok i ∧ step s = exec i s.tickTimers) := by
  unfold step
  rw [h, State.fetch_tickTimers]
  cases hf : s.fetch with
  | error c => exact .inl ⟨c, rfl, rfl⟩
  | ok w =>
    cases hd : decode w with
    | error e => exact .inr (.inl ⟨w, e, rfl, hd, by simp [hd]⟩)
    | ok i => exact .inr (.inr ⟨w, i, rfl, hd, by simp [hd]⟩)

theorem step_faulted {s : State} {d : Diag} (h : s.status = .faulted d) : step s = .fault (.stopped d) := by
  unfold step; rw [h]

end Sys2Proof.Machine
end

