-- ==== Sys2Proof/Tests/Slice0.lean ====
section
/-! SUPPORT. Tests and witnesses. Expected results come from the spec: the words are written out from 30_encoding.md R74,
the effects are vectors of 95_test_vectors.md, named in each comment. A `witness_<Name>` shows a state and operands that
meet every hypothesis of `Obligations.<Name>`, clause by clause. -/

namespace Sys2Proof.Tests

open Sys2Proof.Machine

/-! The machine that the tests start from: R40, with FONT_BASE at 0x050. -/

def wrapParams : Params := { addrPolicy := .wrap, fontBase := 0x50, fontData := fontTable }
def faultParams : Params := { addrPolicy := .fault, fontBase := 0x50, fontData := fontTable }
def s0 : State := State.initial wrapParams
def sf : State := State.initial faultParams

/-- Bytes put into memory. -/
def put (a : Nat) (bs : List Byte) (s : State) : State := { s with mem := Memory.writeList s.params a bs s.mem }

/-- What holds of the next state that an outcome answers. -/
def holds (o : Result) (f : State → Bool) : Bool :=
  match o with
  | .next t => f t
  | .fault _ => false
  | .refused _ => false

/-- One cycle with the word `w` at PC. -/
def ran (s : State) (w : Nat) (f : State → Bool) : Bool := holds (step (s.withFetchWord 16 w)) f

theorem next_of_holds {o : Result} {f : State → Bool} (h : holds o f = true) : ∃ t, o = .next t ∧ f t = true := by
  cases o with
  | next t => exact ⟨t, rfl, h⟩
  | fault r => cases h
  | refused r => cases h

/-- The status of a fatal error at 0x200. -/
def fatalAt200 (c : FatalCause) (w : Word) : Status := .faulted { cause := c, pc := 0x200, word := some w }

/-! Well-formedness: the one exclusion of R74, row 1. -/

theorem test_wf_sys : Instr.wf (.sys 0x123) = true := by decide
theorem test_wf_refuses_sys_cls : Instr.wf (.sys 0x0E0) = false := by decide
theorem test_wf_refuses_sys_ret : Instr.wf (.sys 0x0EE) = false := by decide

/-! Decoding: the words of R74, field by field. -/

theorem test_decode_sys : decode 0b0000_0001_0010_0011 = .ok (.sys 0x123) := by decide
theorem test_decode_cls : decode 0b0000_0000_1110_0000 = .ok .cls := by decide
theorem test_decode_ret : decode 0b0000_0000_1110_1110 = .ok .ret := by decide
theorem test_decode_jp : decode 0b0001_1010_1011_1100 = .ok (.jp 0xABC) := by decide
theorem test_decode_call : decode 0b0010_1010_1011_1100 = .ok (.call 0xABC) := by decide
theorem test_decode_seImm : decode 0b0011_0011_0001_0000 = .ok (.seImm 3 0x10) := by decide
theorem test_decode_sneImm : decode 0b0100_0011_0001_1111 = .ok (.sneImm 3 0x1F) := by decide
theorem test_decode_seReg : decode 0b0101_0001_0010_0000 = .ok (.seReg 1 2) := by decide
theorem test_decode_ldImm : decode 0b0110_1010_0100_0010 = .ok (.ldImm 10 0x42) := by decide
theorem test_decode_addImm : decode 0b0111_0010_0010_0000 = .ok (.addImm 2 0x20) := by decide
theorem test_decode_ldReg : decode 0b1000_0001_1110_0000 = .ok (.ldReg 1 14) := by decide
theorem test_decode_orReg : decode 0b1000_0001_1110_0001 = .ok (.orReg 1 14) := by decide
theorem test_decode_andReg : decode 0b1000_0001_1110_0010 = .ok (.andReg 1 14) := by decide
theorem test_decode_xorReg : decode 0b1000_0001_1110_0011 = .ok (.xorReg 1 14) := by decide
theorem test_decode_addReg : decode 0b1000_0001_1110_0100 = .ok (.addReg 1 14) := by decide
theorem test_decode_subReg : decode 0b1000_0001_1110_0101 = .ok (.subReg 1 14) := by decide
theorem test_decode_shr : decode 0b1000_0001_1110_0110 = .ok (.shr 1 14) := by decide
theorem test_decode_subnReg : decode 0b1000_0001_1110_0111 = .ok (.subnReg 1 14) := by decide
theorem test_decode_shl : decode 0b1000_0001_1110_1110 = .ok (.shl 1 14) := by decide
theorem test_decode_sneReg : decode 0b1001_0001_0010_0000 = .ok (.sneReg 1 2) := by decide
theorem test_decode_ldI : decode 0b1010_0010_1111_0000 = .ok (.ldI 0x2F0) := by decide
theorem test_decode_jpV0 : decode 0b1011_0011_0000_0001 = .ok (.jpV0 0x301) := by decide
theorem test_decode_rnd : decode 0b1100_0011_0000_1111 = .ok (.rnd 3 0x0F) := by decide
theorem test_decode_drw : decode 0b1101_0001_0010_0101 = .ok (.drw 1 2 5) := by decide
theorem test_decode_skp : decode 0b1110_0111_1001_1110 = .ok (.skp 7) := by decide
theorem test_decode_sknp : decode 0b1110_0111_1010_0001 = .ok (.sknp 7) := by decide
theorem test_decode_ldFromDt : decode 0b1111_1011_0000_0111 = .ok (.ldFromDt 11) := by decide
theorem test_decode_ldKey : decode 0b1111_1011_0000_1010 = .ok (.ldKey 11) := by decide
theorem test_decode_ldToDt : decode 0b1111_1011_0001_0101 = .ok (.ldToDt 11) := by decide
theorem test_decode_ldToSt : decode 0b1111_1011_0001_1000 = .ok (.ldToSt 11) := by decide
theorem test_decode_addI : decode 0b1111_1011_0001_1110 = .ok (.addI 11) := by decide
theorem test_decode_ldFont : decode 0b1111_1011_0010_1001 = .ok (.ldFont 11) := by decide
theorem test_decode_ldBcd : decode 0b1111_1011_0011_0011 = .ok (.ldBcd 11) := by decide
theorem test_decode_storeRegs : decode 0b1111_1011_0101_0101 = .ok (.storeRegs 11) := by decide
theorem test_decode_loadRegs : decode 0b1111_1011_0110_0101 = .ok (.loadRegs 11) := by decide

/-- Y2, A30: illegal words. -/
theorem test_decode_illegal :
    decode 0x5121 = .error (.unknownInstruction 0x5121) ∧ decode 0x8018 = .error (.unknownInstruction 0x8018) ∧
    decode 0x801F = .error (.unknownInstruction 0x801F) ∧ decode 0x912E = .error (.unknownInstruction 0x912E) ∧
    decode 0xE09F = .error (.unknownInstruction 0xE09F) ∧ decode 0xF000 = .error (.unknownInstruction 0xF000) ∧
    decode 0xF0FF = .error (.unknownInstruction 0xF0FF) := by decide

theorem test_decode_truncated : decodeBytes [0x12] = .error .truncated := by decide
theorem test_decodeTableWord : decodeTableWord 16 0xD125 = some (.drw 1 2 5) := by decide
/-- R52: the high byte comes first. -/
theorem test_encodeBytes : encodeBytes (.ldI 0x2F0) = [0xA2, 0xF0] := by decide

/-! The cycle. -/

/-- Y3: the fetch wraps. -/
theorem test_fetch_wraps : (put 0xFFF [0x12] (put 0 [0x34] { s0 with pc := 0xFFF })).fetch = .ok 0x1234 := by decide
/-- Y1. -/
theorem test_unknown_is_fatal : ran s0 0xFFFF (fun t => t.status == fatalAt200 .unknownInstruction 0xFFFF) = true := by decide
/-- Y6, Y7. -/
theorem test_halted : (s0.withFetchWord 16 0x0000).isHalted = true ∧ (s0.withFetchWord 16 0x00E0).isHalted = false := by
  decide
/-- From reset, a word placed at 0x200 is what the next step runs (R282). -/
theorem test_reset_runs_word : ran State.reset 0x6A42 (fun t => t.reg 10 == 0x42 && t.pc == 0x202) = true := by decide
/-- T1, T2: the decrement saturates. -/
theorem test_timers_tick :
    ran { s0 with st := 0xFF } 0x0000 (fun t => t.dt == 0 && t.st == 0xFE) = true ∧
    ran { s0 with dt := 1, st := 1 } 0x0000 (fun t => t.dt == 0 && t.st == 0) = true := by decide
/-- L1-8 (the longest ROM of L1-9 is the witness of ConstructResult). -/
theorem test_rom_too_large : construct wrapParams (List.replicate 3584 0) = .error .romTooLarge := by
  exact if_pos (show (List.replicate 3584 (0 : Byte)).length > Config.maxRom by rw [List.length_replicate]; decide)

/-! Control flow. -/

/-- CF1. -/
theorem test_sys : ran { s0 with pc := 0x300 } 0x0123 (fun t => t.pc == 0x302) = true := by decide
/-- CF7. -/
theorem test_ret :
    ran { s0 with sp := 1, stack := s0.stack.set 0 0x0204 } 0x00EE (fun t => t.sp == 0 && t.pc == 0x204) = true := by decide
/-- CF8. -/
theorem test_ret_underflow : ran s0 0x00EE (fun t => t.status == fatalAt200 .stackUnderflow 0x00EE) = true := by decide
/-- CF2. -/
theorem test_jp : ran s0 0x1ABC (fun t => t.pc == 0xABC) = true := by decide
/-- CF5. -/
theorem test_call_last :
    ran { s0 with sp := 15 } 0x2300 (fun t => t.stack[15] == 0x202 && t.sp == 16 && t.pc == 0x300) = true := by decide
/-- CF6. -/
theorem test_call_overflow :
    ran { s0 with sp := 16 } 0x2300 (fun t => t.status == fatalAt200 .stackOverflow 0x2300) = true := by decide
/-- CF9. -/
theorem test_seImm : ran (s0.setReg 3 0x10) 0x3310 (fun t => t.pc == 0x204) = true := by decide
/-- CF16. -/
theorem test_seImm_past_top : ran { s0 with pc := 0xFFE } 0x3000 (fun t => t.pc == 0x1002) = true := by decide
/-- CF10. -/
theorem test_sneImm : ran (s0.setReg 3 0x10) 0x4310 (fun t => t.pc == 0x202) = true := by decide
/-- CF10. -/
theorem test_sneImm_taken : ran (s0.setReg 3 0x11) 0x4310 (fun t => t.pc == 0x204) = true := by decide
/-- CF11. -/
theorem test_seReg : ran ((s0.setReg 1 7).setReg 2 7) 0x5120 (fun t => t.pc == 0x204) = true := by decide
/-- CF12. -/
theorem test_sneReg : ran ((s0.setReg 1 7).setReg 2 8) 0x9120 (fun t => t.pc == 0x204) = true := by decide
/-- CF12. -/
theorem test_sneReg_same : ran (s0.setReg 1 7) 0x9110 (fun t => t.pc == 0x202) = true := by decide
/-- CF15. -/
theorem test_jpV0 : ran (s0.setReg 0 0xFF) 0xBFFF (fun t => t.pc == 0x10FE) = true := by decide

/-! Registers and arithmetic. -/

/-- A1. -/
theorem test_ldImm : ran s0 0x6A42 (fun t => t.reg 10 == 0x42 && t.pc == 0x202) = true := by decide
/-- A2. -/
theorem test_addImm_no_carry :
    ran ((s0.setReg 2 0xFF).setReg 15 0x77) 0x7201 (fun t => t.reg 2 == 0 && t.reg 15 == 0x77) = true := by decide
/-- A3. -/
theorem test_addImm_vf : ran (s0.setReg 15 0xFE) 0x7F03 (fun t => t.reg 15 == 0x01) = true := by decide
/-- A4. -/
theorem test_ldReg : ran (s0.setReg 1 0x33) 0x8010 (fun t => t.reg 0 == 0x33) = true := by decide
/-- A5. -/
theorem test_orReg :
    ran (((s0.setReg 0 0x0F).setReg 1 0xF0).setReg 15 0x55) 0x8011
      (fun t => t.reg 0 == 0xFF && t.reg 15 == 0x55) = true := by decide
/-- A6. -/
theorem test_andReg : ran ((s0.setReg 0 0x3C).setReg 1 0x0F) 0x8012 (fun t => t.reg 0 == 0x0C) = true := by decide
/-- A7. -/
theorem test_xorReg : ran ((s0.setReg 0 0xFF).setReg 1 0x0F) 0x8013 (fun t => t.reg 0 == 0xF0) = true := by decide
/-- L1-2a. -/
theorem test_addReg :
    ran ((s0.setReg 0 0xFF).setReg 1 0x01) 0x8014 (fun t => t.reg 0 == 0 && t.reg 15 == 1) = true := by decide
/-- A11: the sum wins over the carry. -/
theorem test_addReg_vf : ran ((s0.setReg 15 0xFF).setReg 1 0x03) 0x8F14 (fun t => t.reg 15 == 0x02) = true := by decide
/-- L1-3. -/
theorem test_subReg :
    ran ((s0.setReg 0 0x03).setReg 1 0x05) 0x8015 (fun t => t.reg 0 == 0xFE && t.reg 15 == 0) = true := by decide
/-- A15: the strict comparison. -/
theorem test_subReg_equal :
    ran ((s0.setReg 0 5).setReg 1 5) 0x8015 (fun t => t.reg 0 == 0 && t.reg 15 == 0) = true := by decide
/-- A19: Vy is ignored. -/
theorem test_shr :
    ran ((s0.setReg 5 4).setReg 6 0xFF) 0x8566 (fun t => t.reg 5 == 2 && t.reg 15 == 0 && t.reg 6 == 0xFF) = true := by
  decide
/-- A20. -/
theorem test_shr_vf : ran (s0.setReg 15 6) 0x8F06 (fun t => t.reg 15 == 3) = true := by decide
/-- A21. -/
theorem test_subnReg :
    ran ((s0.setReg 0 5).setReg 1 3) 0x8017 (fun t => t.reg 0 == 0xFE && t.reg 15 == 0) = true := by decide
/-- A22. -/
theorem test_subnReg_greater :
    ran ((s0.setReg 0 3).setReg 1 5) 0x8017 (fun t => t.reg 0 == 2 && t.reg 15 == 1) = true := by decide
/-- A24. -/
theorem test_shl : ran (s0.setReg 5 0x81) 0x850E (fun t => t.reg 5 == 2 && t.reg 15 == 1) = true := by decide
/-- A26. -/
theorem test_shl_vf : ran (s0.setReg 15 0x81) 0x8F0E (fun t => t.reg 15 == 2) = true := by decide
/-- A28: any draw. -/
theorem test_rnd_mask_zero : ∃ t, exec (.rnd 3 0) (s0.setReg 3 0xFF) = .next t ∧ t.reg 3 = 0 :=
  ⟨_, rfl, show Config.randomByte 0 &&& 0 = 0 from BitVec.and_zero⟩

/-! Index and memory. -/

/-- M1. -/
theorem test_ldI : ran s0 0xA2F0 (fun t => t.i == 0x2F0) = true := by decide
/-- M3. -/
theorem test_addI_wrap : ran ({ s0 with i := 0xFFF }.setReg 4 1) 0xF41E (fun t => t.i == 0) = true := by decide
/-- M3. -/
theorem test_addI_fault : ran ({ sf with i := 0xFFF }.setReg 4 1) 0xF41E (fun t => t.i == 0x1000) = true := by decide
/-- M5. -/
theorem test_ldFont : ran (s0.setReg 2 0x0A) 0xF229 (fun t => t.i == 0x50 + 0x32) = true := by decide
/-- M6. -/
theorem test_ldFont_past : ran (s0.setReg 2 0x10) 0xF229 (fun t => t.i == 0x50 + 0x50) = true := by decide
/-- M7. -/
theorem test_ldBcd :
    ran ({ s0 with i := 0x400 }.setReg 7 0x9C) 0xF733
      (fun t => t.byteAt 0x400 == 1 && t.byteAt 0x401 == 5 && t.byteAt 0x402 == 6 && t.i == 0x400) = true := by decide
/-- M10. -/
theorem test_ldBcd_wrap :
    ran ({ s0 with i := 0xFFF }.setReg 7 0xFF) 0xF733
      (fun t => t.byteAt 0xFFF == 2 && t.byteAt 0 == 5 && t.byteAt 1 == 5) = true := by decide
/-- M11. -/
theorem test_storeRegs :
    ran ((({ s0 with i := 0x500 }.setReg 0 1).setReg 1 2).setReg 2 3) 0xF255
      (fun t => t.byteAt 0x500 == 1 && t.byteAt 0x501 == 2 && t.byteAt 0x502 == 3 && t.byteAt 0x503 == 0 &&
        t.i == 0x500) = true := by decide
/-- M16. -/
theorem test_storeRegs_fault :
    ran { sf with i := 0xFFE } 0xF255 (fun t => t.status == fatalAt200 (.addressOutOfRange 0x1000) 0xF255) = true := by
  decide
/-- M14. -/
theorem test_loadRegs :
    ran ((put 0x500 [1, 2, 3] { s0 with i := 0x500 }).setReg 3 9) 0xF265
      (fun t => t.reg 0 == 1 && t.reg 1 == 2 && t.reg 2 == 3 && t.reg 3 == 9 && t.i == 0x500) = true := by decide
/-- M4. -/
theorem test_loadRegs_fault :
    ran { sf with i := 0x1000 } 0xF065 (fun t => t.status == fatalAt200 (.addressOutOfRange 0x1000) 0xF065) = true := by
  decide

/-! Display. -/

/-- D1, on one pixel. -/
theorem test_cls :
    ran { s0 with display := (s0.display.toggle 5 6).1 } 0x00E0
      (fun t => t.display.pixel 5 6 == false && t.display.dirty == false) = true := by decide
/-- D5, D11: bit 7 is leftmost, the sprite is clipped, nothing wraps. -/
theorem test_drw_clips :
    ran ((put 0x300 [0xFF] { s0 with i := 0x300 }).setReg 0 62) 0xD011
      (fun t => t.display.pixel 62 0 && t.display.pixel 63 0 && !t.display.pixel 0 0 && t.reg 15 == 0 &&
        t.display.dirty) = true := by decide
/-- D9: a collision. -/
theorem test_drw_collides :
    ran (put 0x300 [0xC0] { s0 with i := 0x300, display := (s0.display.toggle 0 0).1 }) 0xD011
      (fun t => !t.display.pixel 0 0 && t.display.pixel 1 0 && t.reg 15 == 1) = true := by decide

/-! Keypad. -/

/-- K1. -/
theorem test_skp : ran ((s0.setReg 1 5).setPressedKeys 0x0020) 0xE19E (fun t => t.pc == 0x204) = true := by decide
/-- K5. -/
theorem test_skp_fatal :
    ran (s0.setReg 1 0x10) 0xE19E (fun t => t.status == fatalAt200 (.keyIndexOutOfRange 0x10) 0xE19E) = true := by decide
/-- K3. -/
theorem test_sknp : ran (s0.setReg 1 5) 0xE1A1 (fun t => t.pc == 0x204) = true := by decide
/-- K7: the lowest key is latched. -/
theorem test_ldKey_latches :
    ran (s0.setPressedKeys 0x0208) 0xF30A (fun t => t.latch == .held 3 && t.pc == 0x200) = true := by decide
/-- K12. -/
theorem test_ldKey_stores :
    ran ({ s0 with latch := .released 3 }.setReg 3 0xFF) 0xF30A
      (fun t => t.reg 3 == 3 && t.latch == .idle && t.pc == 0x202) = true := by decide
/-- K9, K10, K11. -/
theorem test_setPressedKeys :
    (({ s0 with latch := .held 3 } : State).setPressedKeys 0x0200).latch = .released 3 ∧
    (({ s0 with latch := .held 3 } : State).setPressedKeys 0x0008).latch = .held 3 ∧
    (({ s0 with latch := .released 3 } : State).setPressedKeys 0x0008).latch = .released 3 := by decide

/-! Timers. -/

/-- T3. -/
theorem test_ldFromDt : ran { s0 with dt := 0x10 } 0xF107 (fun t => t.dt == 0x0F && t.reg 1 == 0x0F) = true := by decide
/-- T5. -/
theorem test_ldToDt : ran (s0.setReg 2 0x3C) 0xF215 (fun t => t.dt == 0x3C) = true := by decide
/-- T6. -/
theorem test_ldToSt : ran (s0.setReg 2 5) 0xF218 (fun t => t.st == 5) = true := by decide

/-! Witnesses. -/

theorem witness_DecodeOfEncodeIsIdentity : Instr.wf (.sys 0xFFF) = true ∧ Instr.wf (.drw 15 0 15) = true := by decide

theorem witness_EncodeOfDecodeIsIdentity : decode 0x8AB4 = .ok (.addReg 10 11) := by decide

/-- Both clauses, on words that differ in their last bit or in their last nibble. -/
theorem witness_IllegalWordsAreExactlyRejected :
    illegalWord 0x5121 = true ∧ illegalWord 0x5120 = false ∧ illegalWord 0x800F = true ∧ illegalWord 0x800E = false ∧
    illegalWord 0xFFFF = true ∧ illegalWord 0xFF65 = false := by decide

theorem witness_StepRunsDecodedInstruction :
    (put 0x200 [0xD1, 0x25] s0).status = .running ∧
    (put 0x200 [0xD1, 0x25] s0).memRead ((put 0x200 [0xD1, 0x25] s0).pc.toNat) = .ok 0xD1 ∧
    (put 0x200 [0xD1, 0x25] s0).memRead ((put 0x200 [0xD1, 0x25] s0).pc.toNat + 1) = .ok 0x25 ∧
    decode ((0xD1 : Byte) ++ (0x25 : Byte)) = .ok (.drw 1 2 5) := by decide

/-- The bytes at the top of memory for the first clause, a ROM of two bytes for the second. -/
theorem witness_FetchIsBigEndian :
    (({ s0 with pc := 0xFFF } : State).memRead 0xFFF = .ok 0 ∧
      ∃ b, ({ s0 with pc := 0xFFF } : State).memRead 0x1000 = .ok b) ∧
    (∃ s, construct wrapParams [0x12, 0x34] = .ok s ∧ 0 + 1 < ([0x12, 0x34] : List Byte).length) :=
  ⟨⟨by decide, _, rfl⟩, _, rfl, by decide⟩

theorem witness_AccessesFollowTheAddressPolicy :
    s0.params.addrPolicy = .wrap ∧ (sf.params.addrPolicy = .fault ∧ 0xFFF ≤ 0xFFF) ∧
      (sf.params.addrPolicy = .fault ∧ 0xFFF < 0x1000) := by decide

theorem witness_WriteChangesOnlyItsByte :
    (∃ t, s0.memWrite 0x1000 0xAB = .ok t) ∧ (∃ t, sf.memWrite 0xFFF 0xAB = .ok t) := ⟨⟨_, rfl⟩, _, rfl⟩

theorem witness_IllegalWordIsFatal :
    (put 0x200 [0x51, 0x21] s0).status = .running ∧ (put 0x200 [0x51, 0x21] s0).memRead 0x200 = .ok 0x51 ∧
    (put 0x200 [0x51, 0x21] s0).memRead 0x201 = .ok 0x21 ∧ illegalWord ((0x51 : Byte) ++ (0x21 : Byte)) = true := by
  decide

/-- The lowest PC of Y4, and one that is out of range itself. -/
theorem witness_FetchOutOfRangeIsFatal :
    sf.status = .running ∧ sf.params.addrPolicy = .fault ∧ 0xFFF < (0xFFF#16).toNat + 1 ∧
      0xFFF < (0x10FE#16).toNat + 1 := by decide

theorem witness_FaultedMachineHasNoStep :
    ({ s0 with status := fatalAt200 .unknownInstruction 0xFFFF } : State).status =
      .faulted { cause := .unknownInstruction, pc := 0x200, word := some 0xFFFF } := rfl

/-- A machine that goes on, one that faults at its fetch, one at its decode, one in its instruction. -/
theorem witness_RunningMachineStepsOrRaisesItsError :
    s0.status = .running ∧ ran s0 0x6A42 (fun t => t.status == .running) = true ∧
    ran { sf with pc := 0xFFF } 0 (fun t => t.status == .faulted
      { cause := .addressOutOfRange 0x1000, pc := 0xFFF, word := none }) = true ∧
    ran s0 0x5121 (fun t => t.status == fatalAt200 .unknownInstruction 0x5121) = true ∧
    ran s0 0x00EE (fun t => t.status == fatalAt200 .stackUnderflow 0x00EE) = true := by decide

theorem witness_WrapNeverRaisesAddressOutOfRange :
    (s0.withFetchWord 16 0xFFFF).status = .running ∧ (s0.withFetchWord 16 0xFFFF).params.addrPolicy = .wrap ∧
    ∃ t, step (s0.withFetchWord 16 0xFFFF) = .next t ∧ t.status = fatalAt200 .unknownInstruction 0xFFFF := by
  refine ⟨rfl, rfl, ?_⟩
  obtain ⟨t, h, hf⟩ := next_of_holds (f := fun t => t.status == fatalAt200 .unknownInstruction 0xFFFF)
    (show holds (step (s0.withFetchWord 16 0xFFFF)) _ = true by decide)
  exact ⟨t, h, by simpa using hf⟩

/-- A cycle that neither of whose timers its instruction writes, one whose DT it writes, and a host operation. -/
theorem witness_TimersDecrementOncePerCycle :
    (s0.withFetchWord 16 0x6A42).fetch = .ok 0x6A42 ∧ decode 0x6A42 = .ok (.ldImm 10 0x42) ∧
    ran s0 0x6A42 (fun t => t.status == .running) = true ∧
    (∀ x, Instr.ldImm 10 0x42 ≠ .ldToDt x) ∧ (∀ x, Instr.ldImm 10 0x42 ≠ .ldToSt x) ∧
    decode 0xF215 = .ok (.ldToDt 2) ∧ ran s0 0xF215 (fun t => t.status == .running) = true ∧
    HostOp.clearDirty ≠ .runCycle ∧ ∃ t, HostOp.clearDirty.apply s0 = .next t :=
  ⟨by decide, by decide, by decide, by decide, by decide, by decide, by decide, by decide, _, rfl⟩

theorem witness_PcAdvancesByTwo :
    s0.status = .running ∧ (∃ t, exec (.ldImm 10 0x42) s0 = .next t ∧ t.status = .running) ∧
    setsPc (.ldImm 10 0x42) = false := ⟨rfl, ⟨_, rfl, rfl⟩, rfl⟩

theorem witness_StepKeepsMemoryCanonical :
    MemoryInv (put 0x300 [7] s0) ∧ ∃ t, step (put 0x300 [7] s0) = .next t := by
  refine ⟨show Memory.wf wrapParams (Memory.writeList wrapParams 0x300 [7] []) by decide, ?_⟩
  obtain ⟨t, h, -⟩ := next_of_holds (f := fun _ => true) (show holds (step (put 0x300 [7] s0)) _ = true by decide)
  exact ⟨t, h⟩

theorem witness_StepKeepsIndexInRange :
    IndexInv { s0 with i := 0xFFF } ∧ ∃ t, step { s0 with i := 0xFFF } = .next t := by
  refine ⟨by intro _ _; decide, ?_⟩
  obtain ⟨t, h, -⟩ := next_of_holds (f := fun _ => true) (show holds (step { s0 with i := 0xFFF }) _ = true by decide)
  exact ⟨t, h⟩

/-- A machine that holds key 3 on `F30A`. -/
theorem witness_StepKeepsKeyWait :
    KeyWaitInv { s0.withFetchWord 16 0xF30A with latch := .held 3 } ∧
    ∃ t, step { s0.withFetchWord 16 0xF30A with latch := .held 3 } = .next t := by
  refine ⟨fun _ _ => ⟨0xF30A, 3, by decide, by decide⟩, ?_⟩
  obtain ⟨t, h, -⟩ := next_of_holds (f := fun _ => true)
    (show holds (step { s0.withFetchWord 16 0xF30A with latch := .held 3 }) _ = true by decide)
  exact ⟨t, h⟩

/-- A constructed machine, and one after a host operation. -/
theorem witness_EveryRunKeepsTheInvariants :
    Reachable s0 ∧ Reachable (s0.setPressedKeys 0x0008) :=
  ⟨.start wrapParams [] s0 rfl, .op s0 _ (.setPressedKeys 0x0008) (.start wrapParams [] s0 rfl) rfl⟩

/-- Key 3, held on `F30A`, is released; a cycle runs there; a ROM of two bytes is constructed. -/
theorem witness_EveryOperationKeepsTheInvariants :
    MachineInv { s0.withFetchWord 16 0xF30A with latch := .held 3 } ∧
    (∃ t, (HostOp.setPressedKeys 0).apply { s0.withFetchWord 16 0xF30A with latch := .held 3 } = .next t) ∧
    (∃ t, HostOp.runCycle.apply { s0.withFetchWord 16 0xF30A with latch := .held 3 } = .next t) ∧
    ∃ s, construct wrapParams [0xF3, 0x0A] = .ok s :=
  ⟨⟨show Memory.wf wrapParams (s0.withFetchWord 16 0xF30A).mem by decide, fun _ _ => by decide,
    witness_StepKeepsKeyWait.1⟩, ⟨_, rfl⟩, witness_StepKeepsKeyWait.2, _, rfl⟩

theorem witness_CanonicalMemoriesAreEqual :
    Memory.wf wrapParams [(0x300, 7), (0x301, 8)] ∧
    ∀ a < Config.memSize, Memory.read wrapParams [(0x300, 7), (0x301, 8)] a =
      Memory.read wrapParams [(0x300, 7), (0x301, 8)] a := ⟨by decide, fun _ _ => rfl⟩

theorem witness_ParametersNeverChange :
    (∃ t, (HostOp.setPressedKeys 0xFFFF).apply s0 = .next t) ∧ (∃ t, HostOp.runCycle.apply s0 = .next t) := by
  refine ⟨⟨_, rfl⟩, ?_⟩
  obtain ⟨t, h, -⟩ := next_of_holds (f := fun _ => true) (show holds (HostOp.runCycle.apply s0) _ = true by decide)
  exact ⟨t, h⟩

/-! The statements about who reads and writes what share one witness: `LD VA, 0x42` at `s0`, whose next state runs. -/

theorem ldImm_runs : s0.status = .running ∧ ∃ t, exec (.ldImm 10 0x42) s0 = .next t ∧ t.status = .running :=
  ⟨rfl, _, rfl, rfl⟩

theorem witness_OnlyCallAndRetUseTheStack :
    (Instr.ldImm 10 0x42 ≠ .ret ∧ ∀ a, Instr.ldImm 10 0x42 ≠ .call a) ∧ s0.status = .running ∧
    ∃ t, exec (.ldImm 10 0x42) s0 = .next t ∧ t.status = .running := ⟨⟨nofun, nofun⟩, ldImm_runs⟩

/-- `DRW` and `LD ST`, which write what they do not read. -/
theorem witness_DirtyAndSoundTimerAreNeverRead :
    s0.status = .running ∧ (∃ t, exec (.ldToSt 0) s0 = .next t ∧ t.status = .running) ∧
    ∃ t, exec .cls s0 = .next t ∧ t.status = .running := ⟨rfl, ⟨_, rfl, rfl⟩, _, rfl, rfl⟩

theorem witness_OnlyClsAndDrwWriteTheDisplay :
    (Instr.ldImm 10 0x42 ≠ .cls ∧ ∀ x y n, Instr.ldImm 10 0x42 ≠ .drw x y n) ∧ s0.status = .running ∧
    ∃ t, exec (.ldImm 10 0x42) s0 = .next t ∧ t.status = .running := ⟨⟨nofun, nofun⟩, ldImm_runs⟩

theorem witness_OnlyBcdAndBlockStoreWriteMemory :
    ((∀ x, Instr.ldImm 10 0x42 ≠ .ldBcd x) ∧ ∀ x, Instr.ldImm 10 0x42 ≠ .storeRegs x) ∧ s0.status = .running ∧
    ∃ t, exec (.ldImm 10 0x42) s0 = .next t ∧ t.status = .running := ⟨⟨nofun, nofun⟩, ldImm_runs⟩

theorem witness_OnlyThreeInstructionsWriteIndex :
    ((∀ a, Instr.ldImm 10 0x42 ≠ .ldI a) ∧ (∀ x, Instr.ldImm 10 0x42 ≠ .addI x) ∧
      ∀ x, Instr.ldImm 10 0x42 ≠ .ldFont x) ∧ s0.status = .running ∧
    ∃ t, exec (.ldImm 10 0x42) s0 = .next t ∧ t.status = .running := ⟨⟨nofun, nofun, nofun⟩, ldImm_runs⟩

theorem witness_OnlyTheKeyWaitWritesTheLatch :
    (∀ x, Instr.ldImm 10 0x42 ≠ .ldKey x) ∧ s0.status = .running ∧
    ∃ t, exec (.ldImm 10 0x42) s0 = .next t ∧ t.status = .running := ⟨nofun, ldImm_runs⟩

/-- A register beside the destination, and V3 after the block load of V0..V2. -/
theorem witness_RegistersAreWrittenOnlyAsDestinations :
    s0.status = .running ∧ (∃ t, exec (.ldImm 10 0x42) s0 = .next t ∧ t.status = .running) ∧
    writesReg (.ldImm 10 0x42) 15 = false ∧ writesReg (.loadRegs 2) 3 = false ∧
    holds (exec (.loadRegs 2) s0) (fun t => t.status == .running) = true :=
  ⟨rfl, ldImm_runs.2, by decide, by decide, by decide⟩

/-- The last free slot, and the full stack. -/
theorem witness_CallResult :
    ({ s0 with sp := 15 } : State).sp.val < 16 ∧ ({ s0 with sp := 16 } : State).sp.val = 16 := by decide

/-- The first slot, the last one, and the empty stack. -/
theorem witness_RetResult :
    0 < ({ s0 with sp := 1 } : State).sp.val ∧ 0 < ({ s0 with sp := 16 } : State).sp.val ∧ s0.sp.val = 0 := by decide

/-- Sixteen calls from an empty stack, and one from SP = 15. -/
theorem witness_NestedCallsUnwind :
    s0.sp.val + ((List.replicate 15 (0x300 : Addr12)).length + 1) ≤ 16 ∧
    ({ s0 with sp := 15 } : State).sp.val + (([] : List Addr12).length + 1) ≤ 16 := by decide

/-- Under `wrap` at the top of memory, and under `fault` at the last I in range, where `ea` gives each address. -/
theorem witness_BcdResult :
    InRange { s0 with i := 0xFFF } 2 ∧ InRange { sf with i := 0xFFD } 2 ∧
    ea .fault 0xFFD = .ok 0xFFD ∧ ea .fault (0xFFD + 1) = .ok 0xFFE ∧ ea .fault (0xFFD + 2) = .ok 0xFFF ∧
    ea .wrap (0xFFF + 1) = .ok 0 := ⟨.inl rfl, .inr (by decide), rfl, rfl, rfl, rfl⟩

theorem witness_BlockStoreResult :
    InRange { s0 with i := 0xFFF } 15 ∧ InRange { sf with i := 0xFF0 } 15 ∧ (15 : Reg) ≤ 15 ∧
    ea .fault (0xFF0 + 15) = .ok 0xFFF := ⟨.inl rfl, .inr (by decide), by decide, rfl⟩

theorem witness_BlockLoadResult :
    InRange { s0 with i := 0xFFF } 15 ∧ InRange { sf with i := 0xFF0 } 15 ∧ (0 : Reg) ≤ 15 ∧
    ea .fault (0xFF0 + 0) = .ok 0xFF0 := ⟨.inl rfl, .inr (by decide), by decide, rfl⟩

/-- Each of the four instructions at the lowest I whose last access is out of range. -/
theorem witness_AccessOutOfRangeIsFatal :
    sf.params.addrPolicy = .fault ∧
    (∃ x, Instr.ldBcd 7 = .ldBcd x ∧ 2 = 2) ∧ 0xFFF < (0xFFE#16).toNat + 2 ∧
    (∃ x, Instr.storeRegs 15 = .storeRegs x ∧ 15 = x.val) ∧ 0xFFF < (0xFF1#16).toNat + 15 ∧
    (∃ x, Instr.loadRegs 0 = .loadRegs x ∧ 0 = x.val) ∧ 0xFFF < (0x1000#16).toNat + 0 ∧
    (∃ (x y : Reg) (n : Height), Instr.drw 0 0 1 = .drw x y n ∧ n.val = 0 + 1) ∧ 0xFFF < (0x1000#16).toNat + 0 :=
  ⟨rfl, ⟨7, rfl, rfl⟩, by decide, ⟨15, rfl, rfl⟩, by decide, ⟨0, rfl, rfl⟩, by decide, ⟨0, 0, 1, rfl, rfl⟩, by decide⟩

/-- `LD [I], V1` at 0x200 with I = 0x202: V0 and V1 are the next instruction. -/
theorem witness_StoredBytesAreFetched :
    InRange { s0 with i := 0x202 } 1 ∧
    (∃ t, exec (.storeRegs 1) { s0 with i := 0x202 } = .next t ∧
      ea wrapParams.addrPolicy t.pc.toNat = ea wrapParams.addrPolicy (0x202 + (0 : Reg).val) ∧
      ea wrapParams.addrPolicy (t.pc.toNat + 1) = ea wrapParams.addrPolicy (0x202 + (1 : Reg).val)) ∧
    (0 : Reg) ≤ 1 ∧ (1 : Reg) ≤ 1 := by
  refine ⟨.inl rfl, ?_, by decide, by decide⟩
  obtain ⟨t, h, hf⟩ := next_of_holds (f := fun t => t.pc == 0x202)
    (show holds (exec (.storeRegs 1) { s0 with i := 0x202 }) _ = true by decide)
  have hp : t.pc = 0x202 := by simpa using hf
  exact ⟨t, h, by rw [hp]; rfl, by rw [hp]; rfl⟩

/-- No rows; and under `fault` the last address in range, with one row. -/
theorem witness_DrawResult :
    ((0 : Height).val = 0 ∨ InRange { sf with i := 0xFFFF } ((0 : Height).val - 1)) ∧
    ((1 : Height).val = 0 ∨ InRange { sf with i := 0xFFF } ((1 : Height).val - 1)) :=
  ⟨.inl rfl, .inr (.inr (by decide))⟩

theorem witness_DrawTwiceRestores :
    (0 : Reg) ≠ regF ∧ (1 : Reg) ≠ regF ∧
    ((15 : Height).val = 0 ∨ InRange { sf with i := 0xFF1 } ((15 : Height).val - 1)) :=
  ⟨by decide, by decide, .inr (.inr (by decide))⟩

/-- The last key, and the least value that is none. -/
theorem witness_KeySkipResults :
    ((s0.setReg 1 0x0F).reg 1).toNat = (15 : Key).val ∧ 0x0F < ((s0.setReg 1 0x10).reg 1).toNat := by decide

/-- One state for each clause. -/
theorem witness_KeyWaitResult :
    ({ s0 with latch := .released 14 } : State).latch = .released 14 ∧
    ({ s0 with latch := .held 3 } : State).latch = .held 3 ∧
    (s0.latch = .idle ∧ ∀ k, s0.isDown k = false) ∧
    ((s0.setPressedKeys 0x8000).latch = .idle ∧ (s0.setPressedKeys 0x8000).isDown 15 = true ∧
      ∀ j, j < 15 → (s0.setPressedKeys 0x8000).isDown j = false) := by decide

theorem witness_SetPressedKeysResult :
    (({ s0 with latch := .held 3 } : State).latch = .held 3 ∧ (0x0200 : BitVec 16).getLsbD (3 : Key).val = false ∧
      (0x0008 : BitVec 16).getLsbD (3 : Key).val = true) ∧
    (∀ j, s0.latch ≠ .held j) ∧ ∀ j, ({ s0 with latch := .released 3 } : State).latch ≠ .held j := by decide

/-- The longest ROM accepted, the shortest one rejected (L1-8, L1-9), and addresses of each clause. -/
theorem witness_ConstructResult :
    (List.replicate 3583 (0x12 : Byte)).length ≤ 3583 ∧ 3582 < (List.replicate 3583 (0x12 : Byte)).length ∧
    3584 ≤ (List.replicate 3584 (0x12 : Byte)).length ∧ 79 < 80 ∧
    (0x200 + (List.replicate 3583 (0x12 : Byte)).length ≤ 0xFFF ∧ wrapParams.fontBase.val + 80 ≤ 0xFFF) := by
  simp only [List.length_replicate]
  decide

theorem witness_HaltedIsOnlyAQuery : (put 0x202 [0x12] s0).isHalted = true ∧ (put 0x202 [0x12] s0).status = .running := by
  decide

end Sys2Proof.Tests
end

section
/-! The state (10_state.md): what an instruction that goes on running did, and the statements about which
pieces of the state each instruction reads and writes. -/

namespace Sys2Proof.Machine

/-! An instruction that can raise a fatal error went on running exactly when its accesses succeeded. -/

section
variable {s t : State}

theorem State.fatal_not_running {c : FatalCause} {i : Instr} (h : s.fatal c i = .next t) : t.status ≠ .running := by
  cases h; simp

/-- An instruction that answers a running machine raised no fatal error. -/
theorem exec_completed {i : Instr} (h : exec i s = .next t) (ht : t.status = .running) : Completed i s t := by
  obtain ⟨t', h', hc⟩ := exec_cases i s
  cases h.symm.trans h'
  rcases hc with hc | ⟨c, -, rfl⟩
  · exact hc
  · simp at ht

theorem execCall_eq_next {a : Addr12} (ht : t.status = .running) :
    execCall a s = .next t ↔ ∃ u, s.push (s.pc + 2) = some u ∧ t = u.jump (a.setWidth 16) := by
  unfold execCall
  cases s.push (s.pc + 2) with
  | none => simpa using fun h => State.fatal_not_running h ht
  | some u => simp [eq_comm]

theorem execRet_eq_next (ht : t.status = .running) :
    execRet s = .next t ↔ ∃ a u, s.pop = some (a, u) ∧ t = u.jump a := by
  unfold execRet
  cases s.pop with
  | none => simpa using fun h => State.fatal_not_running h ht
  | some r => simp [Prod.ext_iff, eq_comm]

theorem State.skipOnKey_eq_next {want : Bool} {x : Reg} {i : Instr} (ht : t.status = .running) :
    s.skipOnKey want x i = .next t ↔ ∃ k, keyOf (s.reg x) = some k ∧ t = s.skipIf (s.isDown k == want) := by
  unfold State.skipOnKey
  cases keyOf (s.reg x) with
  | none => simpa using fun h => State.fatal_not_running h ht
  | some k => simp [eq_comm]

theorem execLdBcd_eq_next {x : Reg} (ht : t.status = .running) :
    execLdBcd x s = .next t ↔ ∃ u, s.writeBlock s.i.toNat (bcdDigits (s.reg x)) = .ok u ∧ t = u.advance := by
  unfold execLdBcd
  cases s.writeBlock s.i.toNat (bcdDigits (s.reg x)) with
  | error c => simpa using fun h => State.fatal_not_running h ht
  | ok u => simp [eq_comm]

theorem execStoreRegs_eq_next {x : Reg} (ht : t.status = .running) :
    execStoreRegs x s = .next t ↔ ∃ u, s.writeBlock s.i.toNat (s.regsUpTo x) = .ok u ∧ t = u.advance := by
  unfold execStoreRegs
  cases s.writeBlock s.i.toNat (s.regsUpTo x) with
  | error c => simpa using fun h => State.fatal_not_running h ht
  | ok u => simp [eq_comm]

/-- The state after a block load of the bytes `bs` (43_index_memory.md R175). -/
def State.loaded (bs : List Byte) (s : State) : State := ({ s with v := setRegsFrom 0 bs s.v } : State).advance

theorem execLoadRegs_eq_next {x : Reg} (ht : t.status = .running) :
    execLoadRegs x s = .next t ↔ ∃ bs, s.readBlock s.i.toNat (x.val + 1) = .ok bs ∧ t = s.loaded bs := by
  unfold execLoadRegs
  cases s.readBlock s.i.toNat (x.val + 1) with
  | error c => simpa using fun h => State.fatal_not_running h ht
  | ok bs => simp [eq_comm, State.loaded]

/-- What drawing the row bytes `rows` at V[x], V[y] makes of the display, and whether it collides
(44_display.md R194, R196). -/
def State.drawing (x y : Reg) (rows : List Byte) (s : State) : Display × Bool :=
  drawRows (s.reg x).toNat (s.reg y).toNat rows (s.display, false)

/-- The state after a display and a collision flag are stored (R194). -/
def State.drawn (r : Display × Bool) (s : State) : State :=
  (({ s with display := r.1 } : State).setReg regF (flagByte r.2)).advance

theorem execDrw_eq_next {x y : Reg} {n : Height} (ht : t.status = .running) :
    execDrw x y n s = .next t ↔
      ∃ rows, s.readBlock s.i.toNat n.val = .ok rows ∧ t = s.drawn (s.drawing x y rows) := by
  unfold execDrw
  cases s.readBlock s.i.toNat n.val with
  | error c => simpa using fun h => State.fatal_not_running h ht
  | ok rows => simp [eq_comm, State.drawn, State.drawing]

end

/-! PC and the registers. -/

@[simp] theorem State.reg_advance (s : State) (y : Reg) : s.advance.reg y = s.reg y := rfl

@[simp] theorem State.reg_jump (s : State) (a : Word) (y : Reg) : (s.jump a).reg y = s.reg y := rfl

@[simp] theorem State.reg_skipIf (s : State) (c : Bool) (y : Reg) : (s.skipIf c).reg y = s.reg y :=
  State.reg_congr (State.skipIf_v s c) y

theorem pcPlus_two_of_advance {s t u : State} (ht : t = u.advance) (hu : u.pc = s.pc) : PcPlus 2 s t := by
  simp [PcPlus, ht, hu, BitVec.toNat_add]

theorem State.reg_of_writeBlock {s t : State} {a : Nat} {bs : List Byte} (h : s.writeBlock a bs = .ok t) (y : Reg) :
    t.reg y = s.reg y := by
  rw [State.writeBlock_fields h]; rfl

theorem State.pc_of_writeBlock {s t : State} {a : Nat} {bs : List Byte} (h : s.writeBlock a bs = .ok t) :
    t.pc = s.pc := by
  rw [State.writeBlock_fields h]

/-- A block load writes no register above the last one it has a byte for (43_index_memory.md R175). -/
theorem State.reg_loaded_above {s : State} {bs : List Byte} {y : Reg} (h : bs.length ≤ y.val) :
    (s.loaded bs).reg y = s.reg y := by
  show (setRegsFrom 0 bs s.v)[y.val] = s.v[y.val]
  rw [setRegsFrom_getElem, dif_neg (by omega)]

theorem State.reg_drawn_other (s : State) (r : Display × Bool) {y : Reg} (h : y ≠ regF) :
    (s.drawn r).reg y = s.reg y := by
  rw [State.drawn, State.reg_advance, State.reg_setReg, if_neg h]; rfl

theorem State.reg_of_finish {s t : State} {x y : Reg} {b : Byte} (h : s.finish x b = .next t) (hy : y ≠ x) :
    t.reg y = s.reg y := by
  cases h; simp [hy]

theorem State.reg_of_finishFlag {s t : State} {c : Bool} {x y : Reg} {b : Byte} (h : s.finishFlag c x b = .next t)
    (hy : y ≠ x ∧ y ≠ regF) : t.reg y = s.reg y := by
  cases h; simp [hy]

/-- Settles O15: the result of each of these instructions is an Advance of a state with the old PC. -/
theorem pcAdvancesByTwo : Obligations.PcAdvancesByTwo := by
  intro i s t _ h ht hi
  cases i with
  | ret | jp | call | jpV0 | seImm | sneImm | seReg | sneReg | skp | sknp | ldKey => simp [setsPc] at hi
  | ldBcd x =>
    obtain ⟨u, hu, rfl⟩ := (execLdBcd_eq_next ht).1 h
    exact pcPlus_two_of_advance rfl (State.pc_of_writeBlock hu)
  | storeRegs x =>
    obtain ⟨u, hu, rfl⟩ := (execStoreRegs_eq_next ht).1 h
    exact pcPlus_two_of_advance rfl (State.pc_of_writeBlock hu)
  | loadRegs x =>
    obtain ⟨bs, -, rfl⟩ := (execLoadRegs_eq_next ht).1 h
    exact pcPlus_two_of_advance rfl rfl
  | drw x y n =>
    obtain ⟨rows, -, rfl⟩ := (execDrw_eq_next ht).1 h
    exact pcPlus_two_of_advance rfl rfl
  | sys | cls | ldImm | addImm | ldReg | orReg | andReg | xorReg | addReg | subReg | shr | subnReg | shl | ldI | rnd
  | ldFromDt | ldToDt | ldToSt | addI | ldFont => cases h; exact pcPlus_two_of_advance rfl rfl

/-- Settles O29: a result goes to Vx, a flag to VF, a block to V0..Vx, and no other instruction writes a register. -/
theorem registersAreWrittenOnlyAsDestinations : Obligations.RegistersAreWrittenOnlyAsDestinations := by
  intro i s t z _ h ht hz
  cases i with
  | ldImm | addImm | ldReg | orReg | andReg | xorReg | ldFromDt =>
    exact State.reg_of_finish h (by simpa [writesReg] using hz)
  | rnd x nn => exact State.reg_of_finish (s := s.draw.2) h (by simpa [writesReg] using hz)
  | addReg | subReg | shr | subnReg | shl => exact State.reg_of_finishFlag h (by simpa [writesReg] using hz)
  | ldKey x =>
    have hx : z ≠ x := by simpa [writesReg] using hz
    change execLdKey x s = .next t at h
    unfold execLdKey at h
    split at h
    · next j _ => cases h; exact (State.reg_setReg s x z _).trans (if_neg hx)
    · cases h; rfl
    · split at h <;> cases h <;> rfl
  | drw x y n =>
    obtain ⟨rows, -, rfl⟩ := (execDrw_eq_next ht).1 h
    exact State.reg_drawn_other s _ (by simpa [writesReg] using hz)
  | loadRegs x =>
    obtain ⟨bs, hbs, rfl⟩ := (execLoadRegs_eq_next ht).1 h
    have hx : x < z := by simpa [writesReg] using hz
    exact State.reg_loaded_above ((State.readBlock_eq_ok hbs).1 ▸ hx)
  | ldBcd x =>
    obtain ⟨u, hu, rfl⟩ := (execLdBcd_eq_next ht).1 h
    exact State.reg_of_writeBlock hu z
  | storeRegs x =>
    obtain ⟨u, hu, rfl⟩ := (execStoreRegs_eq_next ht).1 h
    exact State.reg_of_writeBlock hu z
  | call a =>
    obtain ⟨u, hu, rfl⟩ := (execCall_eq_next ht).1 h
    obtain ⟨_, rfl⟩ := State.push_eq_some hu
    rfl
  | ret =>
    obtain ⟨a, u, hu, rfl⟩ := (execRet_eq_next ht).1 h
    obtain ⟨_, _, rfl⟩ := State.pop_eq_some hu
    rfl
  | skp | sknp =>
    obtain ⟨k, -, rfl⟩ := (State.skipOnKey_eq_next ht).1 h
    exact State.reg_skipIf s _ z
  | seImm | sneImm | seReg | sneReg => cases h; exact State.reg_skipIf s _ z
  | sys | cls | jp | jpV0 | ldI | addI | ldFont | ldToDt | ldToSt => cases h; rfl

/-! What `Completed` says of single pieces of the state. -/

/-- Settles O25: the display clause of `Completed`, which holds of an instruction that goes on running. -/
theorem onlyClsAndDrwWriteTheDisplay : Obligations.OnlyClsAndDrwWriteTheDisplay := by
  intro i s t hcls hdrw _ h ht
  exact (exec_completed h ht).display hcls hdrw

/-- Settles O27: the index clause of `Completed`. -/
theorem onlyThreeInstructionsWriteIndex : Obligations.OnlyThreeInstructionsWriteIndex := by
  intro i s t hldI haddI hldFont _ h ht
  exact (exec_completed h ht).index hldI haddI hldFont

/-- Settles O28: the clauses of `Completed` on the keys and the latch. -/
theorem onlyTheKeyWaitWritesTheLatch : Obligations.OnlyTheKeyWaitWritesTheLatch := by
  intro i s t _ h ht
  exact ⟨State.isDown_congr (exec_completed h ht).keys, (exec_completed h ht).latch⟩

/-! SP, the stack, ST and the display: five instructions alone touch one of them. -/

/-- The instructions that read or write SP, the stack, ST or the display (10_state.md R29, R30, R33). -/
def touchesSide : Instr → Bool
  | .call _ | .ret | .cls | .drw _ _ _ | .ldToSt _ => true
  | _ => false

/-- `s` with the SP, the stack, the ST and the display of `u`. -/
def State.withSideOf (s u : State) : State :=
  { s with sp := u.sp, stack := u.stack, st := u.st, display := u.display }

theorem Completed.withSideOf_eq {i : Instr} {s t : State} (hc : Completed i s t) (hi : touchesSide i = false) :
    t.withSideOf s = t := by
  have ne : ∀ j, touchesSide j = true → i ≠ j := by rintro j hj rfl; simp [hj] at hi
  obtain ⟨hsp, hstack⟩ := hc.stack (ne _ rfl) fun a => ne _ rfl
  have hst := hc.st fun x => ne _ rfl
  have hdisplay := hc.display (ne _ rfl) fun x y n => ne _ rfl
  rw [State.withSideOf, ← hsp, ← hstack, ← hst, ← hdisplay]

theorem State.skipIf_withSideOf (s u : State) (c : Bool) :
    (s.withSideOf u).skipIf c = (s.skipIf c).withSideOf u := by cases c <;> rfl

theorem State.readBlock_withSideOf (s u : State) (a n : Nat) : (s.withSideOf u).readBlock a n = s.readBlock a n :=
  State.readBlock_congr (s := s) (t := s.withSideOf u) rfl rfl n a

theorem State.writeBlock_withSideOf (u : State) : ∀ {bs : List Byte} {s t : State} {a : Nat},
    s.writeBlock a bs = .ok t → (s.withSideOf u).writeBlock a bs = .ok (t.withSideOf u) := by
  intro bs
  induction bs with
  | nil => intro s t a h; cases h; rfl
  | cons b bs ih =>
    intro s t a h
    simp only [State.writeBlock] at h
    split at h
    · cases h
    · next v hv =>
      obtain ⟨e, he, rfl⟩ := State.memWrite_eq_ok hv
      have hw : (s.withSideOf u).memWrite a b =
          .ok (({ s with mem := s.mem.write s.params e b } : State).withSideOf u) := by
        simp only [State.memWrite, State.withSideOf, he]
      rw [State.writeBlock, hw]
      exact ih h

/-- Every other instruction does the same whatever SP, stack, ST and display are, and leaves them. -/
theorem exec_withSideOf {i : Instr} {s t : State} (u : State) (hi : touchesSide i = false) (h : exec i s = .next t)
    (ht : t.status = .running) : exec i (s.withSideOf u) = .next (t.withSideOf u) := by
  have htu : (t.withSideOf u).status = .running := ht
  cases i with
  | call | ret | cls | drw | ldToSt => cases hi
  | ldBcd x =>
    obtain ⟨v, hv, rfl⟩ := (execLdBcd_eq_next ht).1 h
    exact (execLdBcd_eq_next htu).2 ⟨_, State.writeBlock_withSideOf u hv, rfl⟩
  | storeRegs x =>
    obtain ⟨v, hv, rfl⟩ := (execStoreRegs_eq_next ht).1 h
    exact (execStoreRegs_eq_next htu).2 ⟨_, State.writeBlock_withSideOf u hv, rfl⟩
  | loadRegs x =>
    obtain ⟨bs, hbs, rfl⟩ := (execLoadRegs_eq_next ht).1 h
    exact (execLoadRegs_eq_next htu).2 ⟨bs, (State.readBlock_withSideOf s u _ _).trans hbs, rfl⟩
  | skp | sknp =>
    obtain ⟨k, hk, rfl⟩ := (State.skipOnKey_eq_next ht).1 h
    exact (State.skipOnKey_eq_next htu).2 ⟨k, hk, (State.skipIf_withSideOf s u _).symm⟩
  | seImm | sneImm | seReg | sneReg =>
    cases h; exact congrArg Host.Outcome.next (State.skipIf_withSideOf s u _)
  | ldKey x =>
    change execLdKey x s = .next t at h
    show execLdKey x (s.withSideOf u) = .next (t.withSideOf u)
    have hl : (s.withSideOf u).latch = s.latch := rfl
    have hk : (s.withSideOf u).lowestDown = s.lowestDown := rfl
    unfold execLdKey at h ⊢
    rw [hl, hk]
    cases hs : s.latch with
    | released j => rw [hs] at h; cases h; rfl
    | held j => rw [hs] at h; cases h; rfl
    | idle =>
      rw [hs] at h
      cases hd : s.lowestDown with
      | none => rw [hd] at h; cases h; rfl
      | some k => rw [hd] at h; cases h; rfl
  | sys | jp | ldImm | addImm | ldReg | orReg | andReg | xorReg | addReg | subReg | shr | subnReg | shl | ldI | jpV0
  | rnd | ldFromDt | ldToDt | addI | ldFont => cases h; rfl

/-- Settles O23: CLS, DRW and LD ST by what they do, every other instruction since it touches none of the four. -/
theorem onlyCallAndRetUseTheStack : Obligations.OnlyCallAndRetUseTheStack := by
  intro i s t sp stack hret hcall _ h ht
  have hc := exec_completed h ht
  refine ⟨?_, hc.stack hret hcall⟩
  cases i with
  | ret => exact absurd rfl hret
  | call a => exact absurd rfl (hcall a)
  | cls | ldToSt => cases h; rfl
  | drw x y n =>
    obtain ⟨rows, hrows, rfl⟩ := (execDrw_eq_next ht).1 h
    have hread := State.readBlock_withSideOf s { s with sp := sp, stack := stack } s.i.toNat n.val
    exact (execDrw_eq_next (t := { s.drawn _ with sp := sp, stack := stack }) ht).2 ⟨rows, hread.trans hrows, rfl⟩
  | _ =>
    have hside := exec_withSideOf { s with sp := sp, stack := stack } rfl h ht
    have hts := hc.withSideOf_eq rfl
    calc exec _ { s with sp := sp, stack := stack }
      _ = .next { t.withSideOf s with sp := sp, stack := stack } := hside
      _ = .next { t with sp := sp, stack := stack } := by rw [hts]

/-! The dirty flag and ST. -/

/-- `s` with another dirty flag and another ST. -/
def State.withDirtyAndSt (dirty : Bool) (st : Byte) (s : State) : State :=
  { s with st := st, display := { s.display with dirty := dirty } }

theorem changesOnly_withDirtyAndSt (s : State) (dirty : Bool) (st : Byte) :
    ChangesOnly {.dirty, .st} s (s.withDirtyAndSt dirty st) := by
  intro p hp
  cases p with
  | dirty | st => simp at hp
  | _ => rfl

theorem State.push_withDirtyAndSt {s t : State} {a : Word} (dirty : Bool) (st : Byte) (h : s.push a = some t) :
    (s.withDirtyAndSt dirty st).push a = some (t.withDirtyAndSt dirty st) := by
  obtain ⟨hs, rfl⟩ := State.push_eq_some h
  exact dif_pos hs

theorem State.pop_withDirtyAndSt {s t : State} {a : Word} (dirty : Bool) (st : Byte) (h : s.pop = some (a, t)) :
    (s.withDirtyAndSt dirty st).pop = some (a, t.withDirtyAndSt dirty st) := by
  obtain ⟨hs, rfl, rfl⟩ := State.pop_eq_some h
  exact dif_pos hs

theorem Display.fb_ext {d e : Display} (h : ∀ px py, d.pixel px py = e.pixel px py) : d.fb = e.fb :=
  Vector.ext fun y hy => Vector.ext fun x hx => h ⟨x, hx⟩ ⟨y, hy⟩

/-- Togglings of the same pixels from the same framebuffer give the same framebuffer and the same collision. -/
theorem Toggled.fb_and_hit_eq {S : Fin 64 → Fin 32 → Bool} {a b r q : Display × Bool} (hr : Toggled S a r)
    (hq : Toggled S b q) (hfb : a.1.fb = b.1.fb) (hhit : a.2 = b.2) : r.1.fb = q.1.fb ∧ r.2 = q.2 := by
  have hp : ∀ px py, a.1.pixel px py = b.1.pixel px py := fun px py => by simp only [Display.pixel, hfb]
  refine ⟨Display.fb_ext fun px py => by rw [hr.pixel, hq.pixel, hp], ?_⟩
  rw [Bool.eq_iff_iff, hr.hit, hq.hit, hhit]
  simp only [hp]

/-- Drawing reads no dirty flag. -/
theorem State.drawing_withDirtyAndSt (x y : Reg) (rows : List Byte) (s : State) (dirty : Bool) (st : Byte) :
    ∃ d, (s.withDirtyAndSt dirty st).drawing x y rows =
      ({ (s.drawing x y rows).1 with dirty := d }, (s.drawing x y rows).2) := by
  have hdraw := drawRows_toggled (s.reg x).toNat rows (s.reg y).toNat
  obtain ⟨hfb, hhit⟩ := (hdraw ((s.withDirtyAndSt dirty st).display, false)).fb_and_hit_eq
    (hdraw (s.display, false)) rfl rfl
  exact ⟨((s.withDirtyAndSt dirty st).drawing x y rows).1.dirty, Prod.ext (congrArg (Display.mk · _) hfb) hhit⟩

/-- With another dirty flag and another ST every instruction does the same, those two aside. -/
theorem exec_withDirtyAndSt {i : Instr} {s t : State} (dirty : Bool) (st : Byte) (h : exec i s = .next t)
    (ht : t.status = .running) :
    ∃ d b, exec i (s.withDirtyAndSt dirty st) = .next (t.withDirtyAndSt d b) := by
  have ht' : ∀ d b, (t.withDirtyAndSt d b).status = .running := fun _ _ => ht
  cases i with
  | call a =>
    obtain ⟨u, hu, rfl⟩ := (execCall_eq_next ht).1 h
    exact ⟨dirty, st, (execCall_eq_next (ht' _ _)).2 ⟨_, State.push_withDirtyAndSt dirty st hu, rfl⟩⟩
  | ret =>
    obtain ⟨a, u, hu, rfl⟩ := (execRet_eq_next ht).1 h
    exact ⟨dirty, st, (execRet_eq_next (ht' _ _)).2 ⟨a, _, State.pop_withDirtyAndSt dirty st hu, rfl⟩⟩
  | cls => cases h; exact ⟨false, st, rfl⟩
  | ldToSt x => cases h; exact ⟨dirty, s.reg x, rfl⟩
  | drw x y n =>
    obtain ⟨rows, hrows, rfl⟩ := (execDrw_eq_next ht).1 h
    obtain ⟨d, hd⟩ := State.drawing_withDirtyAndSt x y rows s dirty st
    have hread := State.readBlock_withSideOf s (s.withDirtyAndSt dirty st) s.i.toNat n.val
    refine ⟨d, st, (execDrw_eq_next (ht' d st)).2 ⟨rows, hread.trans hrows, ?_⟩⟩
    rw [hd]; rfl
  | _ =>
    have hside := exec_withSideOf (s.withDirtyAndSt dirty st) rfl h ht
    have hts := (exec_completed h ht).withSideOf_eq rfl
    refine ⟨dirty, st, ?_⟩
    calc exec _ (s.withDirtyAndSt dirty st)
      _ = .next ((t.withSideOf s).withDirtyAndSt dirty st) := hside
      _ = .next (t.withDirtyAndSt dirty st) := by rw [hts]

/-- Settles O24: the run from the changed state ends in `t` with some other dirty flag and ST. -/
theorem dirtyAndSoundTimerAreNeverRead : Obligations.DirtyAndSoundTimerAreNeverRead := by
  intro i s t dirty st _ h ht
  obtain ⟨d, b, hu⟩ := exec_withDirtyAndSt dirty st h ht
  exact ⟨_, hu, changesOnly_withDirtyAndSt t d b⟩

/-! Reset (10_state.md R40) and the key snapshot (45_keypad.md R211). -/

/-- Settles O20: memory lists no entry, I is 0 and the latch is Idle. -/
theorem resetMeetsTheInvariants : Obligations.ResetMeetsTheInvariants where
  memory := Memory.wf_nil defaultParams
  index := fun _ _ => Nat.zero_le 0xFFF
  keyWait := fun _ hlatch => absurd rfl hlatch

/-- Settles O57: each value as `State.initial` writes it. -/
theorem resetState : Obligations.ResetState := by
  refine ⟨fun x => ?_, rfl, rfl, rfl, fun k => ?_, rfl, rfl, fun px py => Display.pixel_cleared px py, rfl,
    fun k => ?_, rfl, rfl, rfl, rfl⟩ <;> exact Vector.getElem_replicate _

theorem State.isDown_setPressedKeys (s : State) (pressed : BitVec 16) (k : Key) :
    (s.setPressedKeys pressed).isDown k = pressed.getLsbD k.val := by
  have h : keysOf pressed = Vector.ofFn fun j : Key => pressed.getLsbD j.val := rfl
  simp [State.isDown, h]

/-- Settles O54: key k is bit k of the set, and the latch moves as each of its cases says. -/
theorem setPressedKeysResult : Obligations.SetPressedKeysResult := by
  intro pressed s
  refine ⟨s.isDown_setPressedKeys pressed, fun j hl hj => ?_, fun j hl hj => ?_, fun hl => ?_, fun p hp => ?_⟩
  · rw [State.setPressedKeys_latch, hl]; exact if_neg (Bool.eq_false_iff.1 hj)
  · rw [State.setPressedKeys_latch, hl]; exact if_pos hj
  · cases hs : s.latch with
    | held j => exact absurd hs (hl j)
    | idle | released j => simp [hs, latchAfterKeys]
  · cases p with
    | latch | key => simp at hp
    | _ => rfl

end Sys2Proof.Machine
end

section
/-! Memory (20_memory.md): its canonical form, which every step keeps and which its bytes determine, the fetch from it,
and which instructions write it. -/

namespace Sys2Proof.Machine

/-! The canonical form is kept (log 26). -/

theorem memoryInv_raiseFatal (s : State) (c : FatalCause) (w : Option Word) : MemoryInv (s.raiseFatal c w) :=
  Memory.wf_ofBytes s.params _

/-- Every instruction keeps the canonical form, also one that raises a fatal error. -/
theorem exec_memoryInv {i : Instr} {s t : State} (hs : MemoryInv s) (h : exec i s = .next t) : MemoryInv t := by
  obtain ⟨t', h', hc⟩ := exec_cases i s
  cases h.symm.trans h'
  rcases hc with hc | ⟨c, -, rfl⟩
  · rw [MemoryInv, hc.params]
    exact hc.wf hs
  · exact memoryInv_raiseFatal s c _

/-- Settles O16: an error of the fetch or the decode leaves the free memory of a fatal error, and otherwise the decoded
instruction ran. -/
theorem stepKeepsMemoryCanonical : Obligations.StepKeepsMemoryCanonical := by
  intro s t hs h
  cases hstatus : s.status with
  | faulted d => rw [step_faulted hstatus] at h; cases h
  | running =>
    rcases step_cases hstatus with ⟨c, -, hstep⟩ | ⟨w, e, -, -, hstep⟩ | ⟨w, i, -, -, hstep⟩
    · cases h.symm.trans hstep; exact memoryInv_raiseFatal _ c none
    · cases h.symm.trans hstep; exact memoryInv_raiseFatal _ _ (some w)
    · exact exec_memoryInv (s := s.tickTimers) hs (hstep.symm.trans h)

/-! The canonical form is determined by the bytes. -/

/-- A listed address reads as its entry, since no address is listed twice. -/
theorem Memory.read_of_mem (p : Params) {m : Memory} {c : Host.Cell} (hm : m.Pairwise fun c d => c.1 < d.1)
    (hc : c ∈ m) : Memory.read p m c.1 = c.2 := by
  induction m with
  | nil => cases hc
  | cons d m ih =>
    obtain ⟨hd, hm⟩ := List.pairwise_cons.1 hm
    rw [Memory.read_cons]
    rcases List.mem_cons.1 hc with rfl | hc
    · exact if_pos rfl
    · rw [if_neg (hd c hc).ne', ih hm hc]

/-- The entries of a canonical memory are the bytes that differ from what construction leaves. -/
theorem Memory.mem_iff_read {p : Params} {m : Memory} (hm : Memory.wf p m) (c : Host.Cell) :
    c ∈ m ↔ c.1 < Config.memSize ∧ Memory.read p m c.1 = c.2 ∧ c.2 ≠ resetByte p c.1 := by
  obtain ⟨hsorted, hcells⟩ := hm
  constructor
  · intro hc
    obtain ⟨hlt, hne⟩ := hcells c hc
    exact ⟨hlt, Memory.read_of_mem p hsorted hc, hne⟩
  · rintro ⟨-, hread, hne⟩
    by_cases hlisted : ∃ d ∈ m, d.1 = c.1
    · obtain ⟨d, hd, haddr⟩ := hlisted
      have hdc : d = c := Prod.ext haddr (by rw [← hread, ← haddr, Memory.read_of_mem p hsorted hd])
      exact hdc ▸ hd
    · have hunlisted := Memory.read_unlisted p m c.1 fun d hd haddr => hlisted ⟨d, hd, haddr⟩
      exact absurd (hread.symm.trans hunlisted) hne

/-- Settles O21: both lists rise strictly and have the same entries. -/
theorem canonicalMemoriesAreEqual : Obligations.CanonicalMemoriesAreEqual := by
  intro p m n hm hn hread
  have hirrefl : Std.Irrefl fun c d : Host.Cell => c.1 < d.1 := ⟨fun c => lt_irrefl c.1⟩
  have hantisymm : Std.Antisymm fun c d : Host.Cell => c.1 < d.1 := ⟨fun _ _ hcd hdc => absurd hdc hcd.asymm⟩
  refine hm.1.eq_of_mem_iff hn.1 fun c => ?_
  rw [Memory.mem_iff_read hm, Memory.mem_iff_read hn]
  exact and_congr_right fun hc => by rw [hread c.1 hc]

/-! Writes. -/

theorem byteAt_memWritten (s : State) (e a : Nat) (b : Byte) :
    ({ s with mem := s.mem.write s.params e b } : State).byteAt a = if a = e then b else s.byteAt a :=
  Memory.read_write s.params s.mem e a b

/-- Settles O8: the write puts `b` at the address `e` of `a` in memory, and memory is all it writes. -/
theorem writeChangesOnlyItsByte : Obligations.WriteChangesOnlyItsByte := by
  intro s t a b h
  obtain ⟨e, he, rfl⟩ := State.memWrite_eq_ok h
  refine ⟨e, he, (byteAt_memWritten s e e b).trans (if_pos rfl), fun p hp => ?_⟩
  cases p with
  | byte a' => exact (byteAt_memWritten s e a' b).trans (if_neg fun heq => hp (congrArg Part.byte heq))
  | _ => rfl

/-- Settles O26: the memory clause of `Completed`, which holds of an instruction that goes on running. -/
theorem onlyBcdAndBlockStoreWriteMemory : Obligations.OnlyBcdAndBlockStoreWriteMemory := by
  intro i s t hbcd hstore _ h ht
  have hc := exec_completed h ht
  exact State.byteAt_congr (hc.mem hbcd hstore) hc.params

/-! The fetch (R52). -/

theorem State.memRead_of_ea {s : State} {a e : Nat} (h : ea s.params.addrPolicy a = .ok e) :
    s.memRead a = .ok (s.byteAt e) := by simp only [State.memRead, h]

theorem State.fetch_of_memRead {s : State} {hi lo : Byte} (hhi : s.memRead s.pc.toNat = .ok hi)
    (hlo : s.memRead (s.pc.toNat + 1) = .ok lo) : s.fetch = .ok (wordOf hi lo) := by
  simp only [State.fetch, hhi, hlo]

theorem construct_eq_ok {p : Params} {rom : List Byte} {s : State} (h : construct p rom = .ok s) :
    rom.length ≤ 3583 ∧ s = { State.initial p with mem := Memory.writeList p Config.programBase rom [] } := by
  unfold construct at h
  split at h
  · cases h
  · next hlen => cases h; exact ⟨Nat.not_lt.1 hlen, rfl⟩

/-- Byte k of the ROM reads back at 0x200 + k (70_reset_and_hazards.md R280). -/
theorem memRead_construct {p : Params} {rom : List Byte} {s : State} (h : construct p rom = .ok s) {k : Nat}
    (hk : k < rom.length) : s.memRead (0x200 + k) = .ok rom[k] := by
  obtain ⟨hlen, rfl⟩ := construct_eq_ok h
  have hread := Memory.read_writeList p rom [] 0x200 (0x200 + k)
  rw [dif_pos (by omega)] at hread
  rw [State.memRead_ok (.inr (by omega)), Nat.mod_eq_of_lt (by omega)]
  exact congrArg Except.ok (hread.trans (by simp))

/-- Settles O6: the fetched word is that of its two bytes, which after construction are those of the ROM. -/
theorem fetchIsBigEndian : Obligations.FetchIsBigEndian := by
  refine ⟨fun s hi lo hhi hlo => ⟨_, State.fetch_of_memRead hhi hlo, wordOf_toNat hi lo⟩, fun p rom s h k hk => ?_⟩
  have hlen := (construct_eq_ok h).1
  have hpc : (BitVec.ofNat 16 (0x200 + k)).toNat = 0x200 + k := Nat.mod_eq_of_lt (by omega)
  have hhi : s.memRead (BitVec.ofNat 16 (0x200 + k)).toNat = .ok rom[k] := by rw [hpc, memRead_construct h]
  have hlo : s.memRead ((BitVec.ofNat 16 (0x200 + k)).toNat + 1) = .ok rom[k + 1] := by
    rw [hpc, Nat.add_assoc, memRead_construct h]
  have hread := State.memRead_congr (s := s) (t := { s with pc := BitVec.ofNat 16 (0x200 + k) }) rfl rfl
  exact ⟨_, State.fetch_of_memRead ((hread _).trans hhi) ((hread _).trans hlo), wordOf_toNat _ _⟩

/-! A stored byte is fetched. -/

/-- A block store in range completes, whatever the status is (43_index_memory.md R174). -/
theorem execStoreRegs_of_inRange {x : Reg} {s : State} (h : InRange s x.val) :
    ∃ u, s.writeBlock s.i.toNat (s.regsUpTo x) = .ok u ∧ execStoreRegs x s = .next u.advance := by
  obtain ⟨u, hu⟩ := State.writeBlock_ok (s := s) (a := s.i.toNat) (bs := s.regsUpTo x)
    (by rw [State.regsUpTo_length]; exact h)
  exact ⟨u, hu, by simp only [execStoreRegs, hu]⟩

theorem byteAt_storedReg {x j : Reg} {s u : State} {e : Nat} (hu : s.writeBlock s.i.toNat (s.regsUpTo x) = .ok u)
    (hj : j ≤ x) (he : ea s.params.addrPolicy (s.i.toNat + j.val) = .ok e) : u.byteAt e = s.reg j := by
  have hlen := State.regsUpTo_length s x
  have hlt : j.val < (s.regsUpTo x).length := hlen ▸ Nat.lt_succ_of_le hj
  rw [(State.writeBlock_byteAt (by omega) hu).1 j.val hlt e he, State.regsUpTo_getElem]

theorem ea_of_inRange {s : State} {last k : Nat} (h : InRange s last) (hk : k ≤ last) :
    ea s.params.addrPolicy (s.i.toNat + k) = .ok ((s.i.toNat + k) % 4096) :=
  ea_ok (h.imp_right fun hle => by omega)

/-- Where an address means that of I + j after a block store, V[j] is read. -/
theorem memRead_storedReg {x j : Reg} {s u : State} {a : Nat} (h : InRange s x.val)
    (hu : s.writeBlock s.i.toNat (s.regsUpTo x) = .ok u) (hj : j ≤ x)
    (ha : ea s.params.addrPolicy a = ea s.params.addrPolicy (s.i.toNat + j.val)) : u.memRead a = .ok (s.reg j) := by
  have he := ea_of_inRange h hj
  have hp : u.params = s.params := by rw [State.writeBlock_fields hu]
  rw [State.memRead_of_ea (hp ▸ ha.trans he), byteAt_storedReg hu hj he]

/-- Settles O48: the store completes, and the fetch after it reads V[j] and V[k]. -/
theorem storedBytesAreFetched : Obligations.StoredBytesAreFetched := by
  intro x j k s t hrange h hj hk hhi hlo
  obtain ⟨u, hu, hstore⟩ := execStoreRegs_of_inRange hrange
  cases h.symm.trans hstore
  have hread := State.memRead_congr (s := u) (t := u.advance) rfl rfl
  exact State.fetch_of_memRead ((hread _).trans (memRead_storedReg hrange hu hj hhi))
    ((hread _).trans (memRead_storedReg hrange hu hk hlo))

end Sys2Proof.Machine
end

section
/-! The cycle (40_cycle.md): which words decode, the equation of `step` for each outcome of the fetch and the decode,
and the statements about one `run_cycle`. -/

namespace Sys2Proof

/-! A word that decodes is the encoding of its instruction (30_encoding.md R77), family by family. -/

section
variable {w : Word} {i : Instr} {e : DecodeError}

theorem encode_decodeFamily0 (hf : fieldFamily w = 0) : encode (decodeFamily0 w) = w := by
  unfold decodeFamily0
  split_ifs with hcls hret
  · exact hcls.symm
  · exact hret.symm
  · exact formatNNN_fields (f := 0x0) hf

theorem encode_of_decodeFamily8 (hf : fieldFamily w = 0x8) (h : decodeFamily8 w = .ok i) : encode i = w := by
  unfold decodeFamily8 at h
  split at h <;> cases h <;> next hn => exact formatXYN_fields (f := 0x8) hf (Fin.ext hn)

theorem encode_of_decodeFamilyE (hf : fieldFamily w = 0xE) (h : decodeFamilyE w = .ok i) : encode i = w := by
  unfold decodeFamilyE at h
  split_ifs at h <;> cases h <;> next hnn => exact formatXNN_fields (f := 0xE) hf hnn

theorem encode_of_decodeFamilyF (hf : fieldFamily w = 0xF) (h : decodeFamilyF w = .ok i) : encode i = w := by
  unfold decodeFamilyF at h
  split_ifs at h <;> cases h <;> next hnn => exact formatXNN_fields (f := 0xF) hf hnn

theorem encode_of_decode (h : decode w = .ok i) : encode i = w := by
  unfold decode at h
  split at h
  case h_1 hf => cases h; exact encode_decodeFamily0 hf
  case h_2 hf => cases h; exact formatNNN_fields (f := 0x1) hf
  case h_3 hf => cases h; exact formatNNN_fields (f := 0x2) hf
  case h_4 hf => cases h; exact formatXNN_fields (f := 0x3) hf rfl
  case h_5 hf => cases h; exact formatXNN_fields (f := 0x4) hf rfl
  case h_6 hf => split_ifs at h with hn; cases h; exact formatXYN_fields (f := 0x5) hf hn
  case h_7 hf => cases h; exact formatXNN_fields (f := 0x6) hf rfl
  case h_8 hf => cases h; exact formatXNN_fields (f := 0x7) hf rfl
  case h_9 hf => exact encode_of_decodeFamily8 hf h
  case h_10 hf => split_ifs at h with hn; cases h; exact formatXYN_fields (f := 0x9) hf hn
  case h_11 hf => cases h; exact formatNNN_fields (f := 0xA) hf
  case h_12 hf => cases h; exact formatNNN_fields (f := 0xB) hf
  case h_13 hf => cases h; exact formatXNN_fields (f := 0xC) hf rfl
  case h_14 hf => cases h; exact formatXYN_fields (f := 0xD) hf rfl
  case h_15 hf => exact encode_of_decodeFamilyE hf h
  case h_16 hf => exact encode_of_decodeFamilyF hf h
  case h_17 => cases h

/-! The words that do not decode are the illegal words (R76), family by family. -/

theorem decodeFamily8_eq_error : decodeFamily8 w = .error e ↔
    (fieldN w).val ∈ [0x8, 0x9, 0xA, 0xB, 0xC, 0xD, 0xF] ∧ e = .unknownInstruction w := by
  unfold decodeFamily8
  split
  case h_10 =>
    have hlt := (fieldN w).isLt
    have hrejected : (fieldN w).val ∈ [0x8, 0x9, 0xA, 0xB, 0xC, 0xD, 0xF] := by
      simp only [List.mem_cons, List.not_mem_nil]
      grind
    simp [hrejected, eq_comm (a := e)]
  all_goals next hn => simp [hn]

theorem decodeFamilyE_eq_error : decodeFamilyE w = .error e ↔
    fieldNN w ∉ [0x9E#8, 0xA1#8] ∧ e = .unknownInstruction w := by
  unfold decodeFamilyE
  split_ifs <;> simp [*, eq_comm (a := e)]

theorem decodeFamilyF_eq_error : decodeFamilyF w = .error e ↔
    fieldNN w ∉ [0x07#8, 0x0A#8, 0x15#8, 0x18#8, 0x1E#8, 0x29#8, 0x33#8, 0x55#8, 0x65#8] ∧
      e = .unknownInstruction w := by
  unfold decodeFamilyF
  split_ifs <;> simp [*, eq_comm (a := e)]

end
end Sys2Proof

namespace Sys2Proof.Machine

section
variable {w : Word} {e : DecodeError}

/-- `illegalWord` in the fields of the word (R71). -/
theorem illegalWord_iff : illegalWord w = true ↔
    ((fieldFamily w = 0x5 ∨ fieldFamily w = 0x9) ∧ fieldN w ≠ 0) ∨
    (fieldFamily w = 0x8 ∧ (fieldN w).val ∈ [0x8, 0x9, 0xA, 0xB, 0xC, 0xD, 0xF]) ∨
    (fieldFamily w = 0xE ∧ fieldNN w ∉ [0x9E#8, 0xA1#8]) ∨
    (fieldFamily w = 0xF ∧
      fieldNN w ∉ [0x07#8, 0x0A#8, 0x15#8, 0x18#8, 0x1E#8, 0x29#8, 0x33#8, 0x55#8, 0x65#8]) := by
  simp only [illegalWord, ← fieldFamily_eq, ← fieldN_val, ← fieldNN_toNat]
  simp [or_assoc, and_assoc, BitVec.toNat_eq]

theorem decode_eq_error_iff : decode w = .error e ↔ illegalWord w = true ∧ e = .unknownInstruction w := by
  rw [illegalWord_iff]
  unfold decode
  split <;> rename_i hf
  case h_6 | h_10 => split_ifs with hn <;> simp [hf, hn, eq_comm]
  case h_9 => simp [hf, decodeFamily8_eq_error]
  case h_15 => simp [hf, decodeFamilyE_eq_error]
  case h_16 => simp [hf, decodeFamilyF_eq_error]
  case h_17 => have hlt := fieldFamily_lt w; grind
  all_goals simp [hf]

end

/-! The equation of `step` for each outcome of the fetch and the decode (40_cycle.md R100). -/

section
variable {s : State} {w : Word}

theorem step_of_fetch_error {c : FatalCause} (hs : s.status = .running) (hf : s.fetch = .error c) :
    step s = .next (s.tickTimers.raiseFatal c none) := by
  simp only [step, hs, State.fetch_tickTimers, hf]

theorem step_of_illegalWord (hs : s.status = .running) (hf : s.fetch = .ok w) (hw : illegalWord w = true) :
    step s = .next (s.tickTimers.raiseFatal .unknownInstruction (some w)) := by
  simp only [step, hs, State.fetch_tickTimers, hf, decode_eq_error_iff.2 ⟨hw, rfl⟩]

theorem step_of_decode {i : Instr} (hs : s.status = .running) (hf : s.fetch = .ok w) (hd : decode w = .ok i) :
    step s = exec i s.tickTimers := by
  simp only [step, hs, State.fetch_tickTimers, hf, hd]

/-- The errors that an instruction can raise do not depend on the timers. -/
theorem canRaise_tickTimers {i : Instr} {c : FatalCause} : CanRaise i s.tickTimers c ↔ CanRaise i s c := by
  cases c <;> rfl

end

/-- Settles O12: by `step_cases`, and by `exec_cases` for the decoded instruction, whose encoding is the
fetched word. -/
theorem runningMachineStepsOrRaisesItsError : Obligations.RunningMachineStepsOrRaisesItsError := by
  intro s hs
  rcases step_cases hs with ⟨c, hf, hstep⟩ | ⟨w, e, hf, hd, hstep⟩ | ⟨w, i, hf, hd, hstep⟩
  · exact ⟨_, hstep, .inr ⟨_, rfl, rfl, .inl ⟨rfl, hf⟩⟩⟩
  · have hw := (decode_eq_error_iff.1 hd).1
    exact ⟨_, hstep, .inr ⟨_, rfl, rfl, .inr ⟨w, rfl, hf, .inl ⟨hw, rfl⟩⟩⟩⟩
  · obtain ⟨t, hexec, hcompleted | ⟨c, hc, rfl⟩⟩ := exec_cases i s.tickTimers
    · exact ⟨t, hstep.trans hexec, .inl (hcompleted.status.trans hs)⟩
    · have hword := congrArg some (encode_of_decode hd)
      exact ⟨_, hstep.trans hexec,
        .inr ⟨_, rfl, rfl, .inr ⟨w, hword, hf, .inr ⟨i, hd, canRaise_tickTimers.1 hc⟩⟩⟩⟩

/-- The decrement of R230 with its test against 0 written as an equality. -/
theorem timerTick_eq (t : Byte) : timerTick t = if t = 0 then 0 else t - 1 := by
  unfold timerTick
  by_cases h : t = 0
  · simp [h]
  · rw [if_pos (Nat.pos_of_ne_zero fun h0 => h (BitVec.eq_of_toNat_eq h0)), if_neg h]

/-- Settles O5: the fetch joins the two bytes, and `step` runs what they decode to after the decrement. -/
theorem stepRunsDecodedInstruction : Obligations.StepRunsDecodedInstruction := by
  intro s hi lo i hs hhi hlo hd
  rw [step_of_decode hs (State.fetch_of_memRead hhi hlo) hd, State.tickTimers, timerTick_eq, timerTick_eq]

/-- Settles O9: the fetch joins the two bytes, and the decode rejects the word. -/
theorem illegalWordIsFatal : Obligations.IllegalWordIsFatal := by
  intro s hi lo hs hhi hlo hw
  exact ⟨_, step_of_illegalWord hs (State.fetch_of_memRead hhi hlo) hw, rfl⟩

/-- Under `fault`, one of the two addresses of the fetch is out of range; the first such is recorded
(40_cycle.md R103, log 24). -/
theorem State.fetch_fault {s : State} (hp : s.params.addrPolicy = .fault) (hpc : 0xFFF < s.pc.toNat + 1) :
    s.fetch = .error (.addressOutOfRange (max s.pc.toNat 0x1000)) := by
  cases hf : s.fetch with
  | ok w =>
    obtain ⟨hi, lo, -, hlo, -⟩ := State.fetch_eq_ok hf
    obtain ⟨e, he, -⟩ := State.memRead_eq_ok hlo
    rw [hp, ea_fault hpc] at he
    cases he
  | error c =>
    obtain ⟨-, -, rfl⟩ := State.fetch_eq_error hf
    congr 2
    split_ifs <;> omega

/-- Settles O10: the fetch fails, and its error is raised with no word. -/
theorem fetchOutOfRangeIsFatal : Obligations.FetchOutOfRangeIsFatal := by
  intro s hs hp hpc
  exact ⟨_, step_of_fetch_error hs (State.fetch_fault hp hpc), rfl⟩

/-- `is_halted()` (40_cycle.md R110). -/
theorem State.isHalted_iff (s : State) :
    s.isHalted = true ↔ s.memRead s.pc.toNat = .ok 0 ∧ s.memRead (s.pc.toNat + 1) = .ok 0 := by
  unfold State.isHalted
  cases s.memRead s.pc.toNat <;> cases s.memRead (s.pc.toNat + 1) <;> simp

theorem changesOnly_tickTimers_advance (s : State) : ChangesOnly {.pc, .dt, .st} s s.tickTimers.advance := by
  intro p hp
  cases p with
  | pc | dt | st => simp at hp
  | _ => rfl

/-- Settles O58: the word of two zero bytes is `SYS 0`, which only advances PC. -/
theorem haltedIsOnlyAQuery : Obligations.HaltedIsOnlyAQuery := by
  intro s
  refine ⟨s.isHalted_iff, fun hhalted hs => ?_⟩
  obtain ⟨hhi, hlo⟩ := s.isHalted_iff.1 hhalted
  have hd : decode (wordOf 0 0) = .ok (.sys 0) := by decide
  exact ⟨s.tickTimers.advance, step_of_decode hs (State.fetch_of_memRead hhi hlo) hd, pcPlus_two_of_advance rfl rfl,
    changesOnly_tickTimers_advance s⟩

end Sys2Proof.Machine
end

section
/-! Control flow (41_control_flow.md): what a jump, a skip, a call and a return make of the state, and the block that a
call and its return enclose. -/

namespace Sys2Proof.Machine

/-! Jumps and skips write PC alone. -/

theorem changesOnly_jump (s : State) (a : Word) : ChangesOnly {.pc} s (s.jump a) := by
  intro p hp
  cases p with
  | pc => simp at hp
  | _ => rfl

theorem changesOnly_advance (s : State) : ChangesOnly {.pc} s s.advance := changesOnly_jump s (s.pc + 2)

theorem changesOnly_skipIf (s : State) (c : Bool) : ChangesOnly {.pc} s (s.skipIf c) := by
  cases c
  · exact changesOnly_advance s
  · exact changesOnly_jump s (s.pc + 4)

theorem pcPlus_skipIf (s : State) (c : Bool) : PcPlus (if c then 4 else 2) s (s.skipIf c) := by
  cases c <;> simp [PcPlus, BitVec.toNat_add]

/-- Settles O38: an Advance and two jumps; the sum of JP V0 is below 65536, so its 16 bits hold it. -/
theorem jumpResults : Obligations.JumpResults := by
  intro nnn s
  refine ⟨⟨_, rfl, pcPlus_two_of_advance rfl rfl, changesOnly_advance s⟩,
    ⟨_, rfl, BitVec.toNat_setWidth_of_le (by decide), changesOnly_jump s _⟩, ⟨_, rfl, ?_, changesOnly_jump s _⟩⟩
  have hnnn := nnn.isLt
  have hreg := (s.reg 0).isLt
  exact Nat.mod_eq_of_lt (by omega)

/-- Settles O42: each is a `skipIf` on its condition, and the SNE forms on the negated one. -/
theorem skipResults : Obligations.SkipResults := by
  intro x y nn s
  refine ⟨⟨_, rfl, ?_, changesOnly_skipIf s _⟩, ⟨_, rfl, ?_, changesOnly_skipIf s _⟩,
    ⟨_, rfl, ?_, changesOnly_skipIf s _⟩, ⟨_, rfl, ?_, changesOnly_skipIf s _⟩⟩
  · simpa using pcPlus_skipIf s (s.reg x == nn)
  · simpa using pcPlus_skipIf s (s.reg x != nn)
  · simpa using pcPlus_skipIf s (s.reg x == s.reg y)
  · simpa using pcPlus_skipIf s (s.reg x != s.reg y)

/-! Calls and returns with room on the stack. -/

/-- The state after a call to `a` from a state with room: PC + 2 is on the stack (R123). -/
def State.called (a : Addr12) (s : State) (h : s.sp.val < 16) : State :=
  { s with pc := a.setWidth 16, sp := ⟨s.sp.val + 1, by omega⟩, stack := s.stack.set s.sp.val (s.pc + 2) }

/-- The state after a return from a stack that is not empty (R121). -/
def State.returned (s : State) (h : 0 < s.sp.val) : State :=
  { s with pc := s.stack[s.sp.val - 1], sp := ⟨s.sp.val - 1, by omega⟩ }

theorem exec_call_of_room (a : Addr12) {s : State} (h : s.sp.val < 16) : exec (.call a) s = .next (s.called a h) := by
  have hpush : s.push (s.pc + 2) = some _ := dif_pos h
  simp only [exec, execCall, hpush]
  rfl

theorem exec_ret_of_nonempty {s : State} (h : 0 < s.sp.val) : exec .ret s = .next (s.returned h) := by
  have hpop : s.pop = some _ := dif_pos h
  simp only [exec, execRet, hpop]
  rfl

theorem execAll_cons_of_next {i : Instr} {is : List Instr} {s t : State} (h : exec i s = .next t) :
    execAll (i :: is) s = execAll is t := by
  simp only [execAll, h]

theorem execAll_append_of_next {is js : List Instr} {s t : State} (h : execAll is s = .next t) :
    execAll (is ++ js) s = execAll js t := by
  induction is generalizing s with
  | nil => cases h; rfl
  | cons i is ih =>
    rw [execAll] at h
    split at h
    · next u hu => rw [List.cons_append, execAll_cons_of_next hu, ih h]
    · cases h
    · cases h

/-- SP and the slots below it are the same in `t` as in `s`. -/
structure StackKept (s t : State) : Prop where
  sp    : t.sp = s.sp
  slots : ∀ k : Fin 16, k.val < s.sp.val → t.stack[k.val] = s.stack[k.val]

/-- A call, a block that keeps the stack and a return lead behind the call and keep the stack: the block leaves the
return address on top. -/
theorem execAll_call_block_ret {a : Addr12} {is : List Instr} {s u : State} (h : s.sp.val < 16)
    (hu : execAll is (s.called a h) = .next u) (hkept : StackKept (s.called a h) u) :
    ∃ t, execAll (.call a :: (is ++ [.ret])) s = .next t ∧ t.pc = s.pc + 2 ∧ StackKept s t := by
  have hsp : u.sp.val = s.sp.val + 1 := congrArg Fin.val hkept.sp
  have hpos : 0 < u.sp.val := by omega
  have hslot : ∀ k : Fin 16, k.val ≤ s.sp.val → u.stack[k.val] = (s.stack.set s.sp.val (s.pc + 2))[k.val] :=
    fun k hk => hkept.slots k (Nat.lt_succ_of_le hk)
  refine ⟨u.returned hpos, ?_, ?_, ?_, fun k hk => ?_⟩
  · rw [execAll_cons_of_next (exec_call_of_room a h), execAll_append_of_next hu,
      execAll_cons_of_next (exec_ret_of_nonempty hpos), execAll]
  · have htop := hslot ⟨s.sp.val, h⟩ le_rfl
    rw [Vector.getElem_set_self] at htop
    simpa [State.returned, hsp] using htop
  · exact Fin.ext (by simp [State.returned, hsp])
  · exact (hslot k hk.le).trans (Vector.getElem_set_ne h k.isLt hk.ne')

/-- Calls with room for them and as many returns keep the stack, and the first call's return is the last. -/
theorem execAll_calls_returns (as : List Addr12) (s : State) (h : s.sp.val + as.length ≤ 16) :
    ∃ t, execAll (as.map .call ++ List.replicate as.length .ret) s = .next t ∧ StackKept s t ∧
      (as ≠ [] → t.pc = s.pc + 2) := by
  induction as generalizing s with
  | nil => exact ⟨s, rfl, ⟨rfl, fun _ _ => rfl⟩, fun hne => absurd rfl hne⟩
  | cons a as ih =>
    rw [List.length_cons] at h
    have hroom : s.sp.val < 16 := by omega
    obtain ⟨u, hu, hkept, -⟩ := ih (s.called a hroom) (by simp only [State.called]; omega)
    obtain ⟨t, ht, hpc, hst⟩ := execAll_call_block_ret hroom hu hkept
    refine ⟨t, ?_, hst, fun _ => hpc⟩
    rw [← ht, List.length_cons, List.replicate_succ', List.map_cons, List.cons_append, List.append_assoc]

/-- Settles O41: by induction on the calls, each of which encloses the rest with its return. -/
theorem nestedCallsUnwind : Obligations.NestedCallsUnwind := by
  intro a as s h
  obtain ⟨t, ht, hkept, hpc⟩ := execAll_calls_returns (a :: as) s h
  refine ⟨t, ht, ?_, hkept.sp, hkept.slots⟩
  rw [PcPlus, hpc (List.cons_ne_nil a as)]
  exact BitVec.toNat_add s.pc 2

end Sys2Proof.Machine
end

section
/-! Register arithmetic (42_alu.md): what `State.finish` and `State.finishFlag` make of the state, so that an instruction
is left with the value and the flag that it hands them. -/

namespace Sys2Proof.Machine

theorem flagByte_toNat (c : Bool) : (flagByte c).toNat = if c then 1 else 0 := by cases c <;> rfl

theorem changesOnly_setReg_advance (s : State) (x : Reg) (b : Byte) :
    ChangesOnly {.pc, .reg x} s (s.setReg x b).advance := by
  intro p hp
  cases p with
  | pc => simp at hp
  | reg y =>
    have hy : y ≠ x := by simpa using hp
    exact (State.reg_setReg s x y b).trans (if_neg hy)
  | _ => rfl

/-- A result with no flag goes to V[x] alone. -/
theorem setsReg_setReg_advance (s : State) (x : Reg) (b : Byte) : SetsReg x b.toNat s (s.setReg x b).advance :=
  ⟨by simp, pcPlus_two_of_advance rfl rfl, changesOnly_setReg_advance s x b⟩

theorem changesOnly_setFlagThenReg_advance (s : State) (c : Bool) (x : Reg) (b : Byte) :
    ChangesOnly {.pc, .reg x, .reg regF} s (s.setFlagThenReg c x b).advance := by
  intro p hp
  cases p with
  | pc => simp at hp
  | reg y =>
    obtain ⟨hx, hF⟩ : y ≠ x ∧ y ≠ regF := by simpa using hp
    exact (State.reg_setFlagThenReg s c x y b).trans ((if_neg hx).trans (if_neg hF))
  | _ => rfl

/-- A result goes to V[x] and its flag to VF, where the result stays if both go there (40_cycle.md R106). -/
theorem setsRegAndFlag_setFlagThenReg_advance (s : State) (c : Bool) (x : Reg) (b : Byte) :
    SetsRegAndFlag x b.toNat c s (s.setFlagThenReg c x b).advance := by
  refine ⟨by simp, fun hx => ?_, pcPlus_two_of_advance rfl rfl, changesOnly_setFlagThenReg_advance s c x b⟩
  rw [State.reg_advance, State.reg_setFlagThenReg, if_neg hx.symm, if_pos rfl, flagByte_toNat]

/-- Settles O30: the result is the immediate. -/
theorem loadImmediateResult : Obligations.LoadImmediateResult :=
  fun x nn s => ⟨_, rfl, setsReg_setReg_advance s x nn⟩

/-- Settles O32: the result is V[y]. -/
theorem copyRegisterResult : Obligations.CopyRegisterResult :=
  fun x y s => ⟨_, rfl, setsReg_setReg_advance s x (s.reg y)⟩

/-- Settles O34: the byte sum is the sum modulo 256, and the flag is `carryOut`. -/
theorem addRegistersResult : Obligations.AddRegistersResult := by
  intro x y s
  refine ⟨_, rfl, ?_⟩
  rw [← BitVec.toNat_add]
  exact setsRegAndFlag_setFlagThenReg_advance s (carryOut (s.reg x) (s.reg y)) x (s.reg x + s.reg y)

end Sys2Proof.Machine
end

section
/-! The index register and the block accesses (43_index_memory.md): what a write of I and a block write leave, and the
error of an access past 0xFFF. -/

namespace Sys2Proof.Machine

/-! A block write at I (R173, R174). -/

/-- Every address of a block write that succeeds is in range. -/
theorem ea_of_writeBlock_eq_ok {bs : List Byte} {s t : State} {a k : Nat} (h : s.writeBlock a bs = .ok t)
    (hk : k < bs.length) : ∃ e, ea s.params.addrPolicy (a + k) = .ok e := by
  induction bs generalizing s a k with
  | nil => cases hk
  | cons b bs ih =>
    rw [State.writeBlock] at h
    split at h
    · cases h
    · next u hu =>
      obtain ⟨e, he, rfl⟩ := State.memWrite_eq_ok hu
      cases k with
      | zero => exact ⟨e, he⟩
      | succ k =>
        have hrest := ih h (Nat.lt_of_succ_lt_succ hk)
        rwa [Nat.add_assoc, Nat.add_comm 1] at hrest

/-- A block write at I changes the bytes that it names and no other piece of the state. -/
theorem changesOnly_writeBlock_advance {s u : State} {bs : List Byte} {last : Nat} (hlen : bs.length = last + 1)
    (hlast : last < 4096) (hu : s.writeBlock s.i.toNat bs = .ok u) :
    ChangesOnly ({.pc} ∪ bytesFromIndex s last) s u.advance := by
  have hfields := State.writeBlock_fields hu
  obtain ⟨-, hother⟩ := State.writeBlock_byteAt (by omega) hu
  intro p hp
  cases p with
  | pc => simp at hp
  | byte a => exact hother a fun k hk he => hp (.inr ⟨k, by omega, a, he, rfl⟩)
  | _ => rw [hfields]; rfl

/-- LD B in range completes, whatever the status is. -/
theorem execLdBcd_of_inRange {x : Reg} {s : State} (h : InRange s 2) :
    ∃ u, s.writeBlock s.i.toNat (bcdDigits (s.reg x)) = .ok u ∧ execLdBcd x s = .next u.advance := by
  obtain ⟨u, hu⟩ := State.writeBlock_ok (bs := bcdDigits (s.reg x)) h
  exact ⟨u, hu, by simp only [execLdBcd, hu]⟩

/-- Settles O44: the three digits are below 256, so a byte holds each, and the block write puts them at I, I + 1
and I + 2. -/
theorem bcdResult : Obligations.BcdResult := by
  intro x s hrange
  obtain ⟨u, hu, hexec⟩ := execLdBcd_of_inRange (x := x) hrange
  have hdigit : ∀ k (hk : k < 3) a, ea s.params.addrPolicy (s.i.toNat + k) = .ok a →
      u.byteAt a = (bcdDigits (s.reg x))[k]'hk := (State.writeBlock_byteAt (by simp [bcdDigits_length]) hu).1
  have hbyte : ∀ n, n < 256 → (BitVec.ofNat 8 n).toNat = n := fun n => Nat.mod_eq_of_lt
  have hreg := (s.reg x).isLt
  refine ⟨u.advance, hexec, fun a ha => ?_, fun a ha => ?_, fun a ha => ?_,
    pcPlus_two_of_advance rfl (State.pc_of_writeBlock hu),
    changesOnly_writeBlock_advance (bcdDigits_length _) (by decide) hu⟩
  · exact (congrArg BitVec.toNat (hdigit 0 (by decide) a ha)).trans (hbyte _ (by omega))
  · exact (congrArg BitVec.toNat (hdigit 1 (by decide) a ha)).trans (hbyte _ (by omega))
  · exact (congrArg BitVec.toNat (hdigit 2 (by decide) a ha)).trans (hbyte _ (by omega))

/-! Under `fault`, a block access whose last address is above 0xFFF fails at the first such address (20_memory.md R51,
log 24). -/

section
variable {s : State} {a : Nat}

theorem State.writeBlock_fault {bs : List Byte} {last : Nat} (hlen : bs.length = last + 1)
    (hp : s.params.addrPolicy = .fault) (h : 0xFFF < a + last) :
    s.writeBlock a bs = .error (.addressOutOfRange (max a 0x1000)) := by
  cases hw : s.writeBlock a bs with
  | ok t =>
    obtain ⟨e, he⟩ := ea_of_writeBlock_eq_ok hw (k := last) (by omega)
    rw [hp, ea_fault h] at he
    cases he
  | error c =>
    obtain ⟨-, -, -, rfl⟩ := State.writeBlock_eq_error hw
    rfl

theorem State.readBlock_fault {last : Nat} (hp : s.params.addrPolicy = .fault) (h : 0xFFF < a + last) :
    s.readBlock a (last + 1) = .error (.addressOutOfRange (max a 0x1000)) := by
  cases hr : s.readBlock a (last + 1) with
  | ok bs =>
    obtain ⟨hlen, hbytes⟩ := State.readBlock_eq_ok hr
    obtain ⟨e, he, -⟩ := State.memRead_eq_ok (hbytes last (by omega))
    rw [hp, ea_fault h] at he
    cases he
  | error c =>
    obtain ⟨-, -, -, rfl⟩ := State.readBlock_eq_error hr
    rfl

end

/-- Settles O47: LD B and LD [I] by the block write that fails, LD Vx, [I] and DRW by the block read. -/
theorem accessOutOfRangeIsFatal : Obligations.AccessOutOfRangeIsFatal := by
  intro i last s hi hp hout
  suffices hfatal : exec i s = s.fatal (.addressOutOfRange (max s.i.toNat 0x1000)) i from ⟨_, hfatal, rfl⟩
  rcases hi with ⟨x, rfl, rfl⟩ | ⟨x, rfl, rfl⟩ | ⟨x, rfl, rfl⟩ | ⟨x, y, n, rfl, hn⟩
  · simp only [exec, execLdBcd, State.writeBlock_fault (bcdDigits_length (s.reg x)) hp hout]
  · simp only [exec, execStoreRegs, State.writeBlock_fault (State.regsUpTo_length s x) hp hout]
  · simp only [exec, execLoadRegs, State.readBlock_fault hp hout]
  · simp only [exec, execDrw, hn, State.readBlock_fault hp hout]

/-! Writes of I (R170 to R172). -/

theorem changesOnly_index_advance (s : State) (w : Word) :
    ChangesOnly {.pc, .index} s ({ s with i := w } : State).advance := by
  intro p hp
  cases p with
  | pc | index => simp at hp
  | _ => rfl

/-- The reduction of I with its modulus by the address policy (10_state.md R27). -/
theorem indexReduced_eq_mod (pol : AddrPolicy) (a : Nat) :
    (indexReduced pol a).toNat = a % (if pol = .wrap then 4096 else 65536) := by
  cases pol <;> exact indexReduced_toNat _ a

/-- An address below 0x1000 is in I as it is, under either policy. -/
theorem indexReduced_of_lt {pol : AddrPolicy} {a : Nat} (h : a < 4096) : (indexReduced pol a).toNat = a := by
  rw [indexReduced_eq_mod]
  exact Nat.mod_eq_of_lt (by split <;> omega)

/-- Settles O43: each writes I alone; `nnn` has 12 bits, and FONT_BASE + 5 V[x] is at most 432 + 5 * 255. -/
theorem indexResults : Obligations.IndexResults := by
  intro nnn x s
  refine ⟨⟨_, rfl, BitVec.toNat_setWidth_of_le (by decide), pcPlus_two_of_advance rfl rfl,
      changesOnly_index_advance s _⟩,
    ⟨_, rfl, indexReduced_eq_mod _ _, pcPlus_two_of_advance rfl rfl, changesOnly_index_advance s _⟩,
    ⟨_, rfl, indexReduced_of_lt ?_, pcPlus_two_of_advance rfl rfl, changesOnly_index_advance s _⟩⟩
  have hbase := s.params.fontBase.isLt
  have hreg := (s.reg x).isLt
  omega

end Sys2Proof.Machine
end

section
/-! The display (44_display.md): a draw in range completes and toggles the pixels of its sprite, once each, so that a
second one of the same sprite undoes it; and what clearing and the host's port leave. -/

namespace Sys2Proof.Machine

/-! The sprite of a draw: the rows that the block read gives are the bytes at I that `spriteBit` describes. -/

theorem rowsBit_eq_spriteBit {s : State} {n : Nat} {rows : List Byte} (h : s.readBlock s.i.toNat n = .ok rows)
    (ox oy : Nat) (px : Fin 64) (py : Fin 32) : rowsBit ox oy rows px py = spriteBit s ox oy n px.val py.val := by
  obtain ⟨rfl, hbytes⟩ := State.readBlock_eq_ok h
  unfold rowsBit spriteBit
  by_cases hy : oy ≤ py.val
  · by_cases hrow : py.val - oy < rows.length
    · rw [List.getElem?_eq_getElem hrow, hbytes _ hrow]
      simp [hy, show py.val < oy + rows.length by omega]
    · simp [List.getElem?_eq_none (Nat.le_of_not_lt hrow), show ¬ py.val < oy + rows.length by omega]
  · simp [hy]

/-- The in-bounds pixels at which the sprite of `DRW Vx, Vy, n` has a bit. -/
def State.sprite (x y : Reg) (n : Height) (s : State) (px : Fin 64) (py : Fin 32) : Bool :=
  spriteBit s (s.reg x).toNat (s.reg y).toNat n.val px.val py.val

theorem State.sprite_congr {s t : State} {x y : Reg} (n : Height) (hx : t.reg x = s.reg x) (hy : t.reg y = s.reg y)
    (hi : t.i = s.i) (hm : t.mem = s.mem) (hp : t.params = s.params) : t.sprite x y n = s.sprite x y n := by
  funext px py
  simp only [State.sprite, spriteBit, hx, hy, hi, State.memRead_congr hm hp]

theorem State.drawing_toggled {x y : Reg} {n : Height} {s : State} {rows : List Byte}
    (h : s.readBlock s.i.toNat n.val = .ok rows) :
    Toggled (s.sprite x y n) (s.display, false) (s.drawing x y rows) := by
  have hsprite : rowsBit (s.reg x).toNat (s.reg y).toNat rows = s.sprite x y n :=
    funext fun px => funext fun py => rowsBit_eq_spriteBit h _ _ px py
  exact hsprite ▸ drawRows_toggled (s.reg x).toNat rows (s.reg y).toNat (s.display, false)

/-- A draw in range completes, whatever the status is, and toggles its sprite (R194). -/
theorem exec_drw_of_inRange (x y : Reg) {n : Height} {s : State} (h : n.val = 0 ∨ InRange s (n.val - 1)) :
    ∃ r, exec (.drw x y n) s = .next (s.drawn r) ∧ Toggled (s.sprite x y n) (s.display, false) r := by
  obtain ⟨rows, hrows⟩ : ∃ rows, s.readBlock s.i.toNat n.val = .ok rows :=
    State.readBlock_ok (h.elim (fun h0 => .inr (.inr h0)) fun hr => hr.imp_right .inl)
  refine ⟨s.drawing x y rows, ?_, State.drawing_toggled hrows⟩
  simp only [exec, execDrw, hrows]
  rfl

/-! The state after a draw. -/

theorem changesOnly_drawn (s : State) (r : Display × Bool) :
    ChangesOnly ({.pc, .dirty, .reg regF} ∪ {p | ∃ px py, p = .pixel px py}) s (s.drawn r) := by
  intro p hp
  cases p with
  | pc | dirty | pixel => simp at hp
  | reg y => exact State.reg_drawn_other s r (by simpa using hp)
  | _ => rfl

theorem State.reg_drawn_flag_toNat (s : State) (r : Display × Bool) :
    ((s.drawn r).reg regF).toNat = if r.2 then 1 else 0 := by
  rw [State.drawn, State.reg_advance, State.reg_setReg, if_pos rfl, flagByte_toNat]

/-- VF is 1 exactly when the draw turned an on pixel off (R196). -/
theorem State.reg_drawn_flag_eq_one {s : State} {r : Display × Bool} {S : Fin 64 → Fin 32 → Bool}
    (h : Toggled S (s.display, false) r) :
    ((s.drawn r).reg regF).toNat = 1 ↔ ∃ px py, S px py = true ∧ s.display.pixel px py = true := by
  have hflag : ((s.drawn r).reg regF).toNat = 1 ↔ r.2 = true := by rw [State.reg_drawn_flag_toNat]; simp
  simpa using hflag.trans h.hit

/-- Settles O50: the draw toggles its sprite, and `Toggled` says what that makes of the pixels, VF and dirty. -/
theorem drawResult : Obligations.DrawResult := by
  intro x y n s hrange
  obtain ⟨r, hexec, hr⟩ := exec_drw_of_inRange x y hrange
  refine ⟨s.drawn r, hexec, hr.pixel, ?_, State.reg_drawn_flag_eq_one hr, hr.dirty, pcPlus_two_of_advance rfl rfl,
    changesOnly_drawn s r⟩
  rw [State.reg_drawn_flag_toNat]
  cases r.2
  · exact .inl rfl
  · exact .inr rfl

/-- Settles O51: the first draw leaves what the sprite depends on, so the second toggles the same pixels back. -/
theorem drawTwiceRestores : Obligations.DrawTwiceRestores := by
  intro x y n s hx hy hrange
  obtain ⟨r, hexec, hr⟩ := exec_drw_of_inRange x y hrange
  obtain ⟨q, hexec', hq⟩ := exec_drw_of_inRange x y (s := s.drawn r) hrange
  have hsprite : (s.drawn r).sprite x y n = s.sprite x y n :=
    State.sprite_congr n (State.reg_drawn_other s r hx) (State.reg_drawn_other s r hy) rfl rfl rfl
  rw [hsprite] at hq
  refine ⟨s.drawn r, (s.drawn r).drawn q, hexec, hexec', fun px py => ?_, State.reg_drawn_flag_eq_one hq⟩
  calc q.1.pixel px py
    _ = (r.1.pixel px py ^^ s.sprite x y n px py) := hq.pixel px py
    _ = ((s.display.pixel px py ^^ s.sprite x y n px py) ^^ s.sprite x y n px py) := by rw [hr.pixel]
    _ = s.display.pixel px py := by rw [Bool.xor_assoc, Bool.xor_self, Bool.xor_false]

/-! Clearing (R192, R193) and the host's display port (R197). -/

theorem changesOnly_cleared_advance (s : State) :
    ChangesOnly ({.pc, .dirty} ∪ {p | ∃ px py, p = .pixel px py}) s
      ({ s with display := Display.cleared } : State).advance := by
  intro p hp
  cases p with
  | pc | dirty | pixel => simp at hp
  | _ => rfl

/-- Settles O49: the display becomes `Display.cleared`, and PC advances. -/
theorem clearScreenResult : Obligations.ClearScreenResult :=
  fun s => ⟨_, rfl, Display.pixel_cleared, rfl, pcPlus_two_of_advance rfl rfl, changesOnly_cleared_advance s⟩

theorem changesOnly_clearDirty (s : State) : ChangesOnly {.dirty} s s.clearDirty := by
  intro p hp
  cases p with
  | dirty => simp at hp
  | _ => rfl

/-- Settles O59: the reads are the display's own fields, and `clear_dirty` writes the flag alone. -/
theorem displayPortResult : Obligations.DisplayPortResult :=
  fun s => ⟨fun _ _ => rfl, rfl, rfl, changesOnly_clearDirty s⟩

end Sys2Proof.Machine
end

section
/-! The keypad (45_keypad.md): a skip on a key by whether V[x] is one, and the key wait by the latch. -/

namespace Sys2Proof.Machine

section
variable {s : State} {x : Reg} {k : Key}

/-! Skips on the state of key V[x] (R212, R213). -/

theorem State.skipOnKey_of_key (want : Bool) (i : Instr) (h : (s.reg x).toNat = k.val) :
    s.skipOnKey want x i = .next (s.skipIf (s.isDown k == want)) := by
  rw [State.skipOnKey, (keyOf_eq_some _ k).2 h]

theorem State.skipOnKey_of_no_key (want : Bool) (i : Instr) (h : 0x0F < (s.reg x).toNat) :
    s.skipOnKey want x i = s.fatal (.keyIndexOutOfRange (s.reg x)) i := by
  rw [State.skipOnKey, (keyOf_eq_none _).2 h]

/-! The key wait (R214): what one execution of LD Vx, K answers in each state of the latch. -/

theorem State.lowestDown_of_least (hk : s.isDown k = true) (hlt : ∀ j, j < k → s.isDown j = false) :
    s.lowestDown = some k := by
  cases hd : s.lowestDown with
  | none => exact absurd hk (by simp [State.lowestDown_eq_none.1 hd k])
  | some l =>
    obtain ⟨hl, hbelow⟩ := State.lowestDown_eq_some hd
    rcases lt_trichotomy l k with hlk | rfl | hkl
    · exact absurd hl (by simp [hlt l hlk])
    · rfl
    · exact absurd hk (by simp [hbelow k hkl])

theorem execLdKey_of_released (x : Reg) (h : s.latch = .released k) :
    execLdKey x s = .next ({ s.setReg x (BitVec.ofNat 8 k.val) with latch := .idle } : State).advance := by
  rw [execLdKey, h]

theorem execLdKey_of_held (x : Reg) (h : s.latch = .held k) : execLdKey x s = .next s := by
  rw [execLdKey, h]

theorem execLdKey_of_no_key_down (x : Reg) (h : s.latch = .idle) (hd : s.lowestDown = none) :
    execLdKey x s = .next s := by
  simp only [execLdKey, h, hd]

theorem execLdKey_of_lowestDown (x : Reg) (h : s.latch = .idle) (hd : s.lowestDown = some k) :
    execLdKey x s = .next { s with latch := .held k } := by
  simp only [execLdKey, h, hd]

end

theorem changesOnly_self (parts : Set Part) (s : State) : ChangesOnly parts s s := by
  intro p _
  cases p <;> rfl

theorem changesOnly_latch (s : State) (l : Latch) : ChangesOnly {.latch} s { s with latch := l } := by
  intro p hp
  cases p with
  | latch => simp at hp
  | _ => rfl

/-- Beside V[x] and PC, a stored key writes the latch. -/
theorem changesOnly_setReg_latch_advance (s : State) (x : Reg) (b : Byte) (l : Latch) :
    ChangesOnly {.pc, .reg x, .latch} s ({ s.setReg x b with latch := l } : State).advance := by
  intro p hp
  obtain ⟨hpc, hreg, hlatch⟩ : p ≠ .pc ∧ p ≠ .reg x ∧ p ≠ .latch := by simpa using hp
  have hsame : p.same s (s.setReg x b).advance := changesOnly_setReg_advance s x b p (by simp [hpc, hreg])
  cases p with
  | latch => exact absurd rfl hlatch
  | _ => exact hsame

/-- Settles O52: with V[x] a key each is a `skipIf` on the state that it wants, and with no key a fatal error. -/
theorem keySkipResults : Obligations.KeySkipResults := by
  intro x s
  refine ⟨fun k hk => ⟨⟨_, State.skipOnKey_of_key true _ hk, ?_, changesOnly_skipIf s _⟩,
      ⟨_, State.skipOnKey_of_key false _ hk, ?_, changesOnly_skipIf s _⟩⟩,
    fun h => ⟨⟨_, State.skipOnKey_of_no_key true _ h, rfl⟩, ⟨_, State.skipOnKey_of_no_key false _ h, rfl⟩⟩⟩
  · simpa using pcPlus_skipIf s (s.isDown k == true)
  · have hpc := pcPlus_skipIf s (s.isDown k == false)
    cases hdown : s.isDown k <;> simpa [hdown] using hpc

/-- Settles O53: a released key is below 16, so a byte holds it, and an idle latch takes the lowest key down. -/
theorem keyWaitResult : Obligations.KeyWaitResult := by
  intro x s
  refine ⟨fun j hj => ⟨_, execLdKey_of_released x hj, ?_, rfl, pcPlus_two_of_advance rfl rfl,
      changesOnly_setReg_latch_advance s x _ .idle⟩,
    fun j hj => ⟨s, execLdKey_of_held x hj, changesOnly_self ∅ s⟩,
    fun hidle hup => ⟨s, execLdKey_of_no_key_down x hidle (State.lowestDown_eq_none.2 hup), changesOnly_self ∅ s⟩,
    fun k hidle hk hlt => ⟨_, execLdKey_of_lowestDown x hidle (State.lowestDown_of_least hk hlt), rfl,
      changesOnly_latch s (.held k)⟩⟩
  calc ((s.setReg x (BitVec.ofNat 8 j.val)).reg x).toNat
    _ = (BitVec.ofNat 8 j.val).toNat := by rw [State.reg_setReg, if_pos rfl]
    _ = j.val := Nat.mod_eq_of_lt (j.isLt.trans (by decide))

end Sys2Proof.Machine
end

section
/-! The timers (46_timers.md): the one decrement of a cycle, and the three instructions that read or write one. -/

namespace Sys2Proof.Machine

/-! The decrement (R230, R234). -/

/-- A cycle that goes on runs its instruction to the end, on the state that the decrement left. -/
theorem step_completed {s t : State} {w : Word} {i : Instr} (hs : s.status = .running) (hf : s.fetch = .ok w)
    (hd : decode w = .ok i) (h : step s = .next t) (ht : t.status = .running) : Completed i s.tickTimers t :=
  exec_completed ((step_of_decode hs hf hd).symm.trans h) ht

theorem HostOp.apply_timers {s t : State} {o : HostOp} (ho : o ≠ .runCycle) (h : o.apply s = .next t) :
    t.dt = s.dt ∧ t.st = s.st := by
  cases o with
  | runCycle => exact absurd rfl ho
  | setPressedKeys | clearDirty => cases h; exact ⟨rfl, rfl⟩

/-- Settles O14: the instruction leaves a timer that it does not write as the decrement made it, and the host's other
operations write the keys, the latch and the display. -/
theorem timersDecrementOncePerCycle : Obligations.TimersDecrementOncePerCycle := by
  refine ⟨fun s t w i hs hf hd h ht => ?_, fun s t o ho h => HostOp.apply_timers ho h⟩
  have hc := step_completed hs hf hd h ht
  refine ⟨fun hi => ?_, fun hi => ?_⟩
  · rw [hc.dt hi, State.tickTimers_dt, timerTick_toNat]
  · rw [hc.st hi, State.tickTimers_st, timerTick_toNat]

/-! Reads and writes of a timer (R231 to R233). -/

theorem changesOnly_dt_advance (s : State) (b : Byte) :
    ChangesOnly {.pc, .dt} s ({ s with dt := b } : State).advance := by
  intro p hp
  cases p with
  | pc | dt => simp at hp
  | _ => rfl

theorem changesOnly_st_advance (s : State) (b : Byte) :
    ChangesOnly {.pc, .st} s ({ s with st := b } : State).advance := by
  intro p hp
  cases p with
  | pc | st => simp at hp
  | _ => rfl

/-- Settles O55: the read is a register write of DT, and each write puts V[x] in its timer alone. -/
theorem timerResults : Obligations.TimerResults :=
  fun x s => ⟨⟨_, rfl, setsReg_setReg_advance s x s.dt⟩,
    ⟨_, rfl, rfl, pcPlus_two_of_advance rfl rfl, changesOnly_dt_advance s (s.reg x)⟩,
    ⟨_, rfl, rfl, pcPlus_two_of_advance rfl rfl, changesOnly_st_advance s (s.reg x)⟩⟩

end Sys2Proof.Machine
end

section
/-! The stack instructions and the faulted machine (41_control_flow.md R121, R123; 60_exceptions.md R250 to R254). -/

namespace Sys2Proof.Machine

/-! What a call and a return write (R29). -/

/-- A push leaves every slot but the one at the old SP. -/
theorem changesOnly_called (a : Addr12) (s : State) (h : s.sp.val < 16) :
    ChangesOnly {.pc, .sp, .slot ⟨s.sp.val, h⟩} s (s.called a h) := by
  intro p hp
  cases p with
  | pc | sp => simp at hp
  | slot k =>
    have hk : k ≠ ⟨s.sp.val, h⟩ := by simpa using hp
    exact Vector.getElem_set_ne h k.isLt fun hval => hk (Fin.ext hval.symm)
  | _ => rfl

theorem changesOnly_returned (s : State) (h : 0 < s.sp.val) : ChangesOnly {.pc, .sp} s (s.returned h) := by
  intro p hp
  cases p with
  | pc | sp => simp at hp
  | _ => rfl

/-! A call and a return with no room for them (R250). -/

theorem exec_call_of_full (a : Addr12) {s : State} (h : s.sp.val = 16) :
    exec (.call a) s = s.fatal .stackOverflow (.call a) := by
  simp only [exec, execCall, State.push_eq_none.2 h]

theorem exec_ret_of_empty {s : State} (h : s.sp.val = 0) : exec .ret s = s.fatal .stackUnderflow .ret := by
  simp only [exec, execRet, State.pop_eq_none.2 h]

/-- Settles O39: with room the new state is `State.called`, whose slot at the old SP holds PC + 2. -/
theorem callResult : Obligations.CallResult := by
  intro nnn s
  refine ⟨fun h => ⟨s.called nnn h, exec_call_of_room nnn h, ?_, rfl, ?_, changesOnly_called nnn s h⟩,
    fun h => ⟨_, exec_call_of_full nnn h, rfl⟩⟩
  · exact BitVec.toNat_setWidth_of_le (by decide)
  · calc ((s.called nnn h).stack[s.sp.val]).toNat
      _ = (s.pc + 2).toNat := congrArg BitVec.toNat (Vector.getElem_set_self h)
      _ = (s.pc.toNat + 2) % 65536 := BitVec.toNat_add s.pc 2

/-- Settles O40: with a return address on the stack the new state is `State.returned`, which adds nothing to it. -/
theorem retResult : Obligations.RetResult :=
  fun s => ⟨fun h => ⟨s.returned h, exec_ret_of_nonempty h, rfl, rfl, changesOnly_returned s h⟩,
    fun h => ⟨_, exec_ret_of_empty h, rfl⟩⟩

/-- Settles O11: it is the model's law `step_faulted` (R254). -/
theorem faultedMachineHasNoStep : Obligations.FaultedMachineHasNoStep := fun _ _ => step_faulted

end Sys2Proof.Machine
end

section
/-! Construction and the invariants of a run (70_reset_and_hazards.md R280; 60_exceptions.md R261): the bytes of a
constructed machine, and why each operation of the host keeps the form of memory, the range of I and the key wait. -/

namespace Sys2Proof.Machine

/-! A cycle that goes on. -/

/-- A step that leads to a running machine ran the fetched instruction to its end. -/
theorem step_eq_next_running {s t : State} (h : step s = .next t) (ht : t.status = .running) :
    ∃ w i, s.status = .running ∧ s.fetch = .ok w ∧ decode w = .ok i ∧ exec i s.tickTimers = .next t ∧
      Completed i s.tickTimers t := by
  cases hs : s.status with
  | faulted d => rw [step_faulted hs] at h; cases h
  | running =>
    rcases step_cases hs with ⟨c, -, hstep⟩ | ⟨w, e, -, -, hstep⟩ | ⟨w, i, hf, hd, hstep⟩
    · cases h.symm.trans hstep; simp at ht
    · cases h.symm.trans hstep; simp at ht
    · have hexec := hstep.symm.trans h
      exact ⟨w, i, rfl, hf, hd, hexec, exec_completed hexec ht⟩

/-- A cycle keeps the range of I: the index clause of `Completed` (10_state.md R27). -/
theorem indexInv_of_step {s t : State} (hs : IndexInv s) (h : step s = .next t) : IndexInv t := by
  intro ht hwrap
  obtain ⟨w, i, hrun, -, -, -, hc⟩ := step_eq_next_running h ht
  have hwrap' : s.params.addrPolicy = .wrap := hc.params ▸ hwrap
  exact hc.indexLe hwrap' (hs hrun hwrap')

/-! The key wait (45_keypad.md R214 to R216). -/

theorem AtKeyWait.of_fetch_eq {s t : State} (hs : AtKeyWait s) (h : t.fetch = s.fetch) : AtKeyWait t := by
  obtain ⟨w, x, hf, hd⟩ := hs
  exact ⟨w, x, h.trans hf, hd⟩

/-- Only the execution that leaves the latch Idle moves PC off the key wait. -/
theorem execLdKey_pc {x : Reg} {s t : State} (h : execLdKey x s = .next t) (hl : t.latch ≠ .idle) : t.pc = s.pc := by
  cases hs : s.latch with
  | released j => cases h.symm.trans (execLdKey_of_released x hs); exact absurd rfl hl
  | held j => cases h.symm.trans (execLdKey_of_held x hs); rfl
  | idle =>
    cases hd : s.lowestDown with
    | none => cases h.symm.trans (execLdKey_of_no_key_down x hs hd); rfl
    | some k => cases h.symm.trans (execLdKey_of_lowestDown x hs hd); rfl

/-- A `LD Vx, K` that leaves the latch Held or Released is the next instruction again. -/
theorem fetch_of_execLdKey {x : Reg} {s t : State} (h : execLdKey x s = .next t) (hl : t.latch ≠ .idle) :
    t.fetch = s.fetch := by
  obtain ⟨t', h', hc⟩ := exec_ldKey_cases x s
  cases h.symm.trans h'
  exact State.fetch_congr (hc.mem nofun nofun) hc.params (execLdKey_pc h hl)

/-- A cycle keeps the key wait: an instruction other than `LD Vx, K` leaves the latch, which is then Idle. -/
theorem keyWaitInv_of_step {s t : State} (hs : KeyWaitInv s) (h : step s = .next t) : KeyWaitInv t := by
  intro ht hl
  obtain ⟨w, i, hrun, hf, hd, hexec, hc⟩ := step_eq_next_running h ht
  by_cases hi : ∃ x, i = .ldKey x
  · obtain ⟨x, rfl⟩ := hi
    have hfetch : t.fetch = s.fetch := (fetch_of_execLdKey hexec hl).trans s.fetch_tickTimers
    exact AtKeyWait.of_fetch_eq ⟨w, x, hf, hd⟩ hfetch
  · have hlatch : t.latch = s.latch := hc.latch fun x hx => hi ⟨x, hx⟩
    obtain ⟨w', x, hf', hd'⟩ := hs hrun (hlatch ▸ hl)
    cases hf.symm.trans hf'
    cases hd.symm.trans hd'
    exact absurd ⟨x, rfl⟩ hi

/-- A key update starts and ends no key wait. -/
theorem latchAfterKeys_eq_idle {pressed : BitVec 16} {l : Latch} : latchAfterKeys pressed l = .idle ↔ l = .idle := by
  cases l with
  | held j => rw [latchAfterKeys]; split_ifs <;> simp
  | idle | released j => simp [latchAfterKeys]

/-! The three invariants together. -/

theorem machineInv_of_step {s t : State} (hs : MachineInv s) (h : step s = .next t) : MachineInv t where
  memory := stepKeepsMemoryCanonical s t hs.memory h
  index := indexInv_of_step hs.index h
  keyWait := keyWaitInv_of_step hs.keyWait h

theorem machineInv_setPressedKeys {s : State} (hs : MachineInv s) (pressed : BitVec 16) :
    MachineInv (s.setPressedKeys pressed) where
  memory := hs.memory
  index := hs.index
  keyWait := fun hrun hl =>
    (hs.keyWait hrun fun hidle => hl (latchAfterKeys_eq_idle.2 hidle)).of_fetch_eq (State.fetch_congr rfl rfl rfl)

theorem machineInv_clearDirty {s : State} (hs : MachineInv s) : MachineInv s.clearDirty where
  memory := hs.memory
  index := hs.index
  keyWait := fun hrun hl => (hs.keyWait hrun hl).of_fetch_eq (State.fetch_congr rfl rfl rfl)

/-- A constructed machine lists a canonical ROM copy, I is 0 and the latch is Idle. -/
theorem machineInv_of_construct {p : Params} {rom : List Byte} {s : State} (h : construct p rom = .ok s) :
    MachineInv s := by
  obtain ⟨hlen, rfl⟩ := construct_eq_ok h
  have hfits : 0x200 + rom.length ≤ 4096 := by omega
  exact { memory := Memory.wf_writeList p rom [] 0x200 hfits (Memory.wf_nil p)
          index := fun _ _ => Nat.zero_le 0xFFF
          keyWait := fun _ hl => absurd rfl hl }

/-- Settles O60: the three operations one by one, and construction. -/
theorem everyOperationKeepsTheInvariants : Obligations.EveryOperationKeepsTheInvariants := by
  refine ⟨fun s t o hs h => ?_, fun p rom s => machineInv_of_construct⟩
  cases o with
  | runCycle => exact machineInv_of_step hs h
  | setPressedKeys pressed => cases h; exact machineInv_setPressedKeys hs pressed
  | clearDirty => cases h; exact machineInv_clearDirty hs

/-! The bytes of a constructed machine (R57, R280). -/

theorem resetByte_font (p : Params) {k : Nat} (h : k < 80) : resetByte p (p.fontBase.val + k) = p.fontData[k] := by
  have hbase := p.fontBase.isLt
  have hbelow : p.fontBase.val + k < Config.programBase := show _ < 0x200 by omega
  have hfont : p.fontBase.val ≤ p.fontBase.val + k ∧ p.fontBase.val + k < p.fontBase.val + 80 := by omega
  rw [resetByte, if_pos hbelow, dif_pos hfont]
  simp only [Nat.add_sub_cancel_left]

theorem resetByte_eq_zero {p : Params} {a : Nat} (h : a < p.fontBase.val ∨ p.fontBase.val + 80 ≤ a) :
    resetByte p a = 0 := by
  rw [resetByte, dif_neg (by omega), ite_self]

theorem construct_of_length_le (p : Params) {rom : List Byte} (h : rom.length ≤ 3583) :
    construct p rom = .ok { State.initial p with mem := Memory.writeList p Config.programBase rom [] } :=
  if_neg (Nat.not_lt.2 h)

section
variable {p : Params} {rom : List Byte} {s : State} {a k : Nat}

theorem byteAt_construct_rom (h : construct p rom = .ok s) (hk : k < rom.length) :
    s.byteAt (0x200 + k) = rom[k] := by
  obtain ⟨hlen, -⟩ := construct_eq_ok h
  have hread := memRead_construct h hk
  rw [State.memRead_ok (.inr (by omega)), Nat.mod_eq_of_lt (by omega)] at hread
  exact Except.ok.inj hread

theorem byteAt_construct_outside (h : construct p rom = .ok s) (ha : a < 0x200 ∨ 0x200 + rom.length ≤ a) :
    s.byteAt a = resetByte p a := by
  obtain ⟨-, rfl⟩ := construct_eq_ok h
  exact (Memory.read_writeList p rom [] 0x200 a).trans (dif_neg (by omega))

end

/-- Settles O56: the ROM stands where it was copied, and outside it the construction values, the font's all below
0x200. -/
theorem constructResult : Obligations.ConstructResult := by
  intro p rom
  refine ⟨fun hlen => ?_, fun hlen => if_pos hlen⟩
  have h := construct_of_length_le p hlen
  refine ⟨_, h, fun k hk => byteAt_construct_rom h hk, fun k hk => ?_, fun a hrom hfont => ?_, rfl⟩
  · have hbase := p.fontBase.isLt
    rw [byteAt_construct_outside h (.inl (by omega)), resetByte_font p hk]
  · rw [byteAt_construct_outside h hrom, resetByte_eq_zero hfont]

end Sys2Proof.Machine
end

section
/-! The encoding (30_encoding.md): decode and encode invert each other, and what decode rejects. -/

namespace Sys2Proof

/-- The round trip of every instruction (R74, R75), from those of its constructors. -/
theorem Laws.RoundTrip.statement : ∀ i : Instr, RoundTrip.Statement i
  | .sys nnn => RoundTrip.sys nnn
  | .cls => RoundTrip.cls
  | .ret => RoundTrip.ret
  | .jp nnn => RoundTrip.jp nnn
  | .call nnn => RoundTrip.call nnn
  | .seImm x nn => RoundTrip.seImm x nn
  | .sneImm x nn => RoundTrip.sneImm x nn
  | .seReg x y => RoundTrip.seReg x y
  | .ldImm x nn => RoundTrip.ldImm x nn
  | .addImm x nn => RoundTrip.addImm x nn
  | .ldReg x y => RoundTrip.ldReg x y
  | .orReg x y => RoundTrip.orReg x y
  | .andReg x y => RoundTrip.andReg x y
  | .xorReg x y => RoundTrip.xorReg x y
  | .addReg x y => RoundTrip.addReg x y
  | .subReg x y => RoundTrip.subReg x y
  | .shr x y => RoundTrip.shr x y
  | .subnReg x y => RoundTrip.subnReg x y
  | .shl x y => RoundTrip.shl x y
  | .sneReg x y => RoundTrip.sneReg x y
  | .ldI nnn => RoundTrip.ldI nnn
  | .jpV0 nnn => RoundTrip.jpV0 nnn
  | .rnd x nn => RoundTrip.rnd x nn
  | .drw x y n => RoundTrip.drw x y n
  | .skp x => RoundTrip.skp x
  | .sknp x => RoundTrip.sknp x
  | .ldFromDt x => RoundTrip.ldFromDt x
  | .ldKey x => RoundTrip.ldKey x
  | .ldToDt x => RoundTrip.ldToDt x
  | .ldToSt x => RoundTrip.ldToSt x
  | .addI x => RoundTrip.addI x
  | .ldFont x => RoundTrip.ldFont x
  | .ldBcd x => RoundTrip.ldBcd x
  | .storeRegs x => RoundTrip.storeRegs x
  | .loadRegs x => RoundTrip.loadRegs x

/-- Settles O1: each constructor's word reads back its own fields. -/
theorem decodeOfEncodeIsIdentity : Obligations.DecodeOfEncodeIsIdentity := Laws.RoundTrip.statement

/-- No word decodes to a `SYS` of 0E0 or 0EE, since its word would be that of `CLS` or `RET` (R75). -/
theorem wf_of_decode {w : Word} {i : Instr} (h : decode w = .ok i) : i.wf = true := by
  cases i with
  | sys nnn =>
    rw [← encode_of_decode h] at h
    have hcls : nnn ≠ 0x0E0#12 := by
      rintro rfl
      have hd : decode (encode (.sys 0x0E0#12)) = .ok .cls := by decide
      cases h.symm.trans hd
    have hret : nnn ≠ 0x0EE#12 := by
      rintro rfl
      have hd : decode (encode (.sys 0x0EE#12)) = .ok .ret := by decide
      cases h.symm.trans hd
    simp [Instr.wf, hcls, hret]
  | _ => rfl

/-- Settles O2: the two halves are `wf_of_decode` and `encode_of_decode`. -/
theorem encodeOfDecodeIsIdentity : Obligations.EncodeOfDecodeIsIdentity :=
  fun _ _ h => ⟨wf_of_decode h, encode_of_decode h⟩

/-- Settles O3: `decode` answers an error exactly on the illegal words, and an instruction otherwise. -/
theorem illegalWordsAreExactlyRejected : Obligations.IllegalWordsAreExactlyRejected := by
  intro w
  refine ⟨fun hw => Machine.decode_eq_error_iff.2 ⟨hw, rfl⟩, fun hw => ?_⟩
  cases hd : decode w with
  | ok i => exact ⟨i, rfl⟩
  | error e => exact absurd (Machine.decode_eq_error_iff.1 hd).1 (Bool.eq_false_iff.1 hw)

/-- Settles O4: nineteen closed words, evaluated. -/
theorem sampleWordsDecode : Obligations.SampleWordsDecode := by
  unfold Obligations.SampleWordsDecode
  decide

end Sys2Proof
end

section
/-! Safety and the invariants along a run (60_exceptions.md R250, R261; 10_state.md R27; 45_keypad.md R216). -/

namespace Sys2Proof.Machine

/-- Settles O18: it is `keyWaitInv_of_step`. -/
theorem stepKeepsKeyWait : Obligations.StepKeepsKeyWait := fun _ _ => keyWaitInv_of_step

/-- Settles O17: it is `indexInv_of_step`. -/
theorem stepKeepsIndexInRange : Obligations.StepKeepsIndexInRange := fun _ _ => indexInv_of_step

/-- Settles O19: by induction on the run; a start is a constructed machine, and each operation keeps the invariants. -/
theorem everyRunKeepsTheInvariants : Obligations.EveryRunKeepsTheInvariants := by
  intro s hs
  obtain ⟨hop, hconstruct⟩ := everyOperationKeepsTheInvariants
  induction hs with
  | start p rom s h => exact hconstruct p rom s h
  | op s t o _ h ih => exact hop s t o ih h

/-- Settles O13: of the errors that stop a running machine, both that are AddressOutOfRange need the policy `fault`. -/
theorem wrapNeverRaisesAddressOutOfRange : Obligations.WrapNeverRaisesAddressOutOfRange := by
  intro s t d a hs hwrap h ht hcause
  have hpolicy : s.params.addrPolicy ≠ .fault := by simp [hwrap]
  obtain ⟨t', h', herr⟩ := runningMachineStepsOrRaisesItsError s hs
  cases h.symm.trans h'
  rcases herr with hrun | ⟨d', hd', -, herr⟩
  · cases ht.symm.trans hrun
  cases ht.symm.trans hd'
  rw [hcause] at herr
  rcases herr with ⟨-, hfetch⟩ | ⟨w, -, -, ⟨-, hunknown⟩ | ⟨i, -, hraise⟩⟩
  · exact hpolicy (State.fetch_eq_error hfetch).1
  · cases hunknown
  · exact hpolicy hraise.1

/-- An instruction keeps the parameters, whether it completes or raises a fatal error. -/
theorem exec_params {i : Instr} {s t : State} (h : exec i s = .next t) : t.params = s.params := by
  obtain ⟨t', h', hc⟩ := exec_cases i s
  cases h.symm.trans h'
  rcases hc with hc | ⟨c, -, rfl⟩
  · exact hc.params
  · exact State.raiseFatal_params s c _

theorem step_params {s t : State} (h : step s = .next t) : t.params = s.params := by
  cases hs : s.status with
  | faulted d => rw [step_faulted hs] at h; cases h
  | running =>
    rcases step_cases hs with ⟨c, -, hstep⟩ | ⟨w, e, -, -, hstep⟩ | ⟨w, i, -, -, hstep⟩
    · cases h.symm.trans hstep; rfl
    · cases h.symm.trans hstep; rfl
    · exact (exec_params (hstep.symm.trans h)).trans s.tickTimers_params

/-- Settles O22: a cycle by `step_params`, and the two other operations write the keys, the latch and the display. -/
theorem parametersNeverChange : Obligations.ParametersNeverChange := by
  intro s t o h
  cases o with
  | runCycle => exact step_params h
  | setPressedKeys | clearDirty => cases h; rfl

end Sys2Proof.Machine
end

section
/-! Reads by the address policy (20_memory.md R51), and the block store and load in range (43_index_memory.md R174,
R175). -/

namespace Sys2Proof.Machine

/-- Settles O7: the three cases of `ea`. -/
theorem accessesFollowTheAddressPolicy : Obligations.AccessesFollowTheAddressPolicy := by
  intro s a
  refine ⟨fun hwrap => State.memRead_ok (.inl hwrap), fun _ ha => ?_, fun hfault ha => ?_⟩
  · rw [State.memRead_ok (.inr ha), Nat.mod_eq_of_lt (Nat.lt_succ_of_le ha)]
  · simp only [State.memRead, hfault, ea_fault ha]

/-- Settles O45: the block write completes, puts V[k] at the address of I + k, and changes no other byte. -/
theorem blockStoreResult : Obligations.BlockStoreResult := by
  intro x s hrange
  obtain ⟨u, hu, hexec⟩ := execStoreRegs_of_inRange hrange
  have hstored : ∀ k ≤ x, ∀ a, ea s.params.addrPolicy (s.i.toNat + k.val) = .ok a → u.byteAt a = s.reg k :=
    fun k hk a ha => byteAt_storedReg hu hk ha
  exact ⟨u.advance, hexec, hstored, pcPlus_two_of_advance rfl (State.pc_of_writeBlock hu),
    changesOnly_writeBlock_advance (State.regsUpTo_length s x) (by omega) hu⟩

/-- A block load in range completes, whatever the status is. -/
theorem execLoadRegs_of_inRange {x : Reg} {s : State} (h : InRange s x.val) :
    ∃ bs, s.readBlock s.i.toNat (x.val + 1) = .ok bs ∧ execLoadRegs x s = .next (s.loaded bs) := by
  obtain ⟨bs, hbs⟩ := State.readBlock_ok (n := x.val + 1) (h.imp_right .inl)
  exact ⟨bs, hbs, by simp only [execLoadRegs, hbs]; rfl⟩

/-- A block load writes V[k] with byte k of the block (R175). -/
theorem State.reg_loaded {s : State} {bs : List Byte} {k : Reg} (h : k.val < bs.length) :
    (s.loaded bs).reg k = bs[k.val] := by
  show (setRegsFrom 0 bs s.v)[k.val] = bs[k.val]
  rw [setRegsFrom_getElem, dif_pos (by omega)]
  simp only [Nat.sub_zero]

theorem changesOnly_loaded {s : State} {bs : List Byte} {x : Reg} (hlen : bs.length = x.val + 1) :
    ChangesOnly ({.pc} ∪ {p | ∃ k : Reg, k ≤ x ∧ p = .reg k}) s (s.loaded bs) := by
  intro p hp
  cases p with
  | pc => simp at hp
  | reg y =>
    have hy : x < y := by simpa using hp
    exact State.reg_loaded_above (hlen ▸ hy)
  | _ => rfl

/-- Settles O46: the block read completes, and V[k] gets its byte k, that at the address of I + k. -/
theorem blockLoadResult : Obligations.BlockLoadResult := by
  intro x s hrange
  obtain ⟨bs, hbs, hexec⟩ := execLoadRegs_of_inRange hrange
  obtain ⟨hlen, hbytes⟩ := State.readBlock_eq_ok hbs
  refine ⟨s.loaded bs, hexec, fun k hk a ha => ?_, pcPlus_two_of_advance rfl rfl, changesOnly_loaded hlen⟩
  have hlt : k.val < bs.length := hlen ▸ Nat.lt_succ_of_le hk
  have hread : s.memRead (s.i.toNat + k.val) = .ok (s.byteAt a) := State.memRead_of_ea ha
  rw [State.reg_loaded hlt]
  exact Except.ok.inj ((hbytes k.val hlt).symm.trans hread)

end Sys2Proof.Machine
end

section
/-! The other arithmetic instructions (42_alu.md): the value and the flag that each hands to its register write, as the
spec's numbers. -/

namespace Sys2Proof.Machine

/-- Settles O31: the byte sum is the sum modulo 256. -/
theorem addImmediateResult : Obligations.AddImmediateResult := by
  intro x nn s
  refine ⟨_, rfl, ?_⟩
  rw [← BitVec.toNat_add]
  exact setsReg_setReg_advance s x (s.reg x + nn)

/-- Settles O33: the number of a bitwise result is the bitwise result of the numbers. -/
theorem logicalResults : Obligations.LogicalResults := by
  intro x y s
  rw [← BitVec.toNat_or, ← BitVec.toNat_and, ← BitVec.toNat_xor]
  exact ⟨⟨_, rfl, setsReg_setReg_advance s x (s.reg x ||| s.reg y)⟩,
    ⟨_, rfl, setsReg_setReg_advance s x (s.reg x &&& s.reg y)⟩,
    ⟨_, rfl, setsReg_setReg_advance s x (s.reg x ^^^ s.reg y)⟩⟩

theorem toNat_sub_byte (a b : Byte) : (a - b).toNat = (a.toNat + 256 - b.toNat) % 256 := by
  have hb := b.isLt
  rw [BitVec.toNat_sub]
  omega

/-- Settles O35: each difference is that of `toNat_sub_byte`, and the flag is `notBorrow`. -/
theorem subtractResults : Obligations.SubtractResults := by
  intro x y s
  rw [← toNat_sub_byte, ← toNat_sub_byte]
  exact ⟨⟨_, rfl, setsRegAndFlag_setFlagThenReg_advance s (notBorrow (s.reg x) (s.reg y)) x (s.reg x - s.reg y)⟩,
    ⟨_, rfl, setsRegAndFlag_setFlagThenReg_advance s (notBorrow (s.reg y) (s.reg x)) x (s.reg y - s.reg x)⟩⟩

theorem toNat_shiftRight_one (a : Byte) : (a >>> 1).toNat = a.toNat / 2 := by
  rw [BitVec.toNat_ushiftRight, Nat.shiftRight_eq_div_pow, pow_one]

theorem toNat_shiftLeft_one (a : Byte) : (a <<< 1).toNat = a.toNat * 2 % 256 := by
  rw [BitVec.toNat_shiftLeft, Nat.shiftLeft_eq, pow_one]

theorem shiftedOutRight_eq (a : Byte) : shiftedOutRight a = decide (a.toNat % 2 = 1) := by
  rw [shiftedOutRight, BitVec.getLsbD, Nat.testBit_zero]

theorem shiftedOutLeft_eq (a : Byte) : shiftedOutLeft a = decide (a.toNat ≥ 128) := by
  have ha := a.isLt
  rw [shiftedOutLeft, BitVec.getLsbD, Nat.testBit_eq_decide_div_mod_eq, decide_eq_decide]
  omega

/-- Settles O36: V[y] is not read, and the bit pushed out is bit 0 or bit 7 of V[x]. -/
theorem shiftResults : Obligations.ShiftResults := by
  intro x y s
  rw [← toNat_shiftRight_one, ← toNat_shiftLeft_one, ← shiftedOutRight_eq, ← shiftedOutLeft_eq]
  exact ⟨⟨_, rfl, setsRegAndFlag_setFlagThenReg_advance s (shiftedOutRight (s.reg x)) x (s.reg x >>> 1)⟩,
    ⟨_, rfl, setsRegAndFlag_setFlagThenReg_advance s (shiftedOutLeft (s.reg x)) x (s.reg x <<< 1)⟩⟩

/-- A result computed from a draw goes to V[x], and the counter has moved on. -/
theorem changesOnly_draw_setReg_advance (s : State) (x : Reg) (b : Byte) :
    ChangesOnly {.pc, .reg x, .fresh} s (s.draw.2.setReg x b).advance := by
  intro p hp
  obtain ⟨hpc, hreg, hfresh⟩ : p ≠ .pc ∧ p ≠ .reg x ∧ p ≠ .fresh := by simpa using hp
  have hsame : p.same s.draw.2 (s.draw.2.setReg x b).advance :=
    changesOnly_setReg_advance s.draw.2 x b p (by simp [hpc, hreg])
  cases p with
  | fresh => exact absurd rfl hfresh
  | _ => exact hsame

/-- Settles O37: the result is the masked draw at the counter of `s`. -/
theorem randomResult : Obligations.RandomResult := by
  intro x nn s
  refine ⟨_, rfl, ?_, rfl, pcPlus_two_of_advance rfl rfl, changesOnly_draw_setReg_advance s x (s.draw.1 &&& nn)⟩
  rw [State.reg_advance, State.reg_setReg, if_pos rfl, BitVec.toNat_and]
  rfl

end Sys2Proof.Machine
end
